-- ==== Sys2Proof/Word.lean ====
section
/-! DEFINITION. The word types: the byte of every port and register (R6, R10, R36), and the 16-bit intermediate's
plain bit vectors are `BitVec` at their own widths. Bits are numbered from 0 at the least significant bit (R10), which
is `BitVec.getLsbD`'s numbering. -/

namespace Sys2Proof

/-- An 8-bit unsigned value: OP, A, B, Y, IDX and SR (R6, R36, 20_memory.md's port table). -/
abbrev Byte := BitVec 8

end Sys2Proof
end

