-- ==== Sys2Proof/Config.lean ====
section
/-! DEFINITION. What an implementation fixes: the width IW of the widened intermediate (R7) and the shape of the named
parameter OPCODE_MAP (R9). The default OPCODE_MAP itself stands in Decode.lean beside the tables that use it. The
register width W of a bit-field transaction is no constant of the machine: it comes with each transaction (R8). The
spec leaves no free value: what an input outside the domain yields is a fault (R97), so nothing here is opaque. -/

namespace Sys2Proof

/-- IW, the width of the widened intermediate: 16 (R7, D10). No output depends on it while it is at least 9 (R80).
Log entry 7. -/
abbrev Config.IW : Nat := 16

/-- The named parameter OPCODE_MAP (R9, D3): the byte that codes each operation of the source's enumeration
NOP, OR, AND, XOR, ADD, SUB (R46, R47). Log entry 6. -/
structure OpcodeMap where
  nop : Byte
  or  : Byte
  and : Byte
  xor : Byte
  add : Byte
  sub : Byte
  deriving DecidableEq, Repr

/-- The six codes, in the order of the source's enumeration (R46). -/
def OpcodeMap.codes (m : OpcodeMap) : List Byte :=
  [m.nop, m.or, m.and, m.xor, m.add, m.sub]

end Sys2Proof
end

