-- ==== Sys2Proof/Syntax.lean ====
section
/-! DEFINITION. The instructions: one constructor for each row of spec/opcode_table.json. The five CALC operations carry
their two operands (R49); the three bit-field operations carry the index alone, because REG and its width W are a data
port outside the command word (R52). -/

namespace Sys2Proof

/-- One command the block can perform. NOP is no constructor: it "is never computed, only used as a sentinel for
invalid input" (R46), and its word is rejected by the decoder (R51). -/
inductive Instr where
  /-- OR A, B (R84). -/
  | or (a b : Byte)
  /-- AND A, B (R85). -/
  | and (a b : Byte)
  /-- XOR A, B (R86). -/
  | xor (a b : Byte)
  /-- ADD A, B (R87). -/
  | add (a b : Byte)
  /-- SUB A, B (R89). -/
  | sub (a b : Byte)
  /-- set REG, IDX (R65). -/
  | set (idx : Byte)
  /-- clear REG, IDX (R66). -/
  | clear (idx : Byte)
  /-- read REG, IDX (R67). -/
  | read (idx : Byte)
  deriving DecidableEq, Repr

/-- Whether the command is a CALC, one of OR, AND, XOR, ADD and SUB (R48), and not a bit-field transaction (R52). -/
def Instr.isCalc : Instr → Bool
  | .or _ _ => true
  | .and _ _ => true
  | .xor _ _ => true
  | .add _ _ => true
  | .sub _ _ => true
  | .set _ => false
  | .clear _ => false
  | .read _ => false

/-- The index of a bit-field command, and none for a CALC. -/
def Instr.index : Instr → Option Byte
  | .or _ _ => none
  | .and _ _ => none
  | .xor _ _ => none
  | .add _ _ => none
  | .sub _ _ => none
  | .set idx => some idx
  | .clear idx => some idx
  | .read idx => some idx

end Sys2Proof
end

