-- ==== Sys2Proof/WellFormed.lean ====
section
/-! DEFINITION. Well-formedness: a command fits a register of W bits when its index is below W (R53, R65 to R67); an
OPCODE_MAP is admissible when its six codes are pairwise distinct (D3); and a numeric code is legal for a CALC when it is
one of the five (R51). The fields of an instruction are bit vectors of their ports' widths, so nothing else can be
ill-formed (U11). -/

namespace Sys2Proof

/-- `i` may be issued with a REG of `w` bits: a CALC always (R95), a bit-field operation when IDX < W (R53). -/
def Instr.fits (w : Nat) (i : Instr) : Bool :=
  match i.index with
  | none => true
  | some idx => decide (idx.toNat < w)

/-- An OPCODE_MAP is "injective, with the five codes distinct from NOP's" (D3): no code occurs twice. -/
def OpcodeMap.wellFormed (m : OpcodeMap) : Bool :=
  decide m.codes.Nodup

/-- The codes a CALC may carry: the five operations, and neither NOP nor any other byte (R51). -/
def OpcodeMap.legal (m : OpcodeMap) (op : Byte) : Bool :=
  op == m.or || op == m.and || op == m.xor || op == m.add || op == m.sub

end Sys2Proof
end

