-- ==== Sys2Proof/Decode.lean ====
section
/-! DEFINITION. The command formats CALC24 (R49) and BF10 (R52), the default OPCODE_MAP (R48), the decoder and the
encoder. A command word is a value on the ports, no bytes in a memory: byte order does not apply (R34). -/

namespace Sys2Proof

/-- The default OPCODE_MAP (R48, D3; log entry 6). -/
def opcodeMap : OpcodeMap where
  nop := 0x00#8
  or  := 0x01#8
  and := 0x02#8
  xor := 0x03#8
  add := 0x04#8
  sub := 0x05#8

/-- A command word, in one of the two formats (R49, R52; D7, log entry 8). -/
inductive CommandWord where
  /-- `{OP, A, B}`: OP is word[23:16], A is word[15:8], B is word[7:0] (R49). -/
  | calc24 (word : BitVec 24)
  /-- `{BFOP, IDX}`: BFOP is word[9:8], IDX is word[7:0] (R52). -/
  | bf10 (word : BitVec 10)
  deriving DecidableEq, Repr

/-- Why a command word names no instruction: the decoder rejects by name (R51, R53). -/
inductive Reject where
  /-- OP is none of the five codes (R51). -/
  | undefinedOperation (op : Byte)
  /-- BFOP is the reserved value 3 (R53). -/
  | undefinedBitOp (bfop : BitVec 2)
  deriving DecidableEq, Repr

/-! ### The fields -/

/-- OP, word[23:16] (R49). -/
def opField (w : BitVec 24) : Byte := w.extractLsb' 16 8
/-- A, word[15:8] (R49). -/
def aField (w : BitVec 24) : Byte := w.extractLsb' 8 8
/-- B, word[7:0] (R49). -/
def bField (w : BitVec 24) : Byte := w.extractLsb' 0 8
/-- BFOP, word[9:8] (R52). -/
def bfopField (w : BitVec 10) : BitVec 2 := w.extractLsb' 8 2
/-- IDX, word[7:0] (R52). -/
def idxField (w : BitVec 10) : Byte := w.extractLsb' 0 8

/-- The CALC command word `{OP, A, B}` (R49). -/
def calcWord (op a b : Byte) : BitVec 24 := op ++ a ++ b
/-- The BF command word `{BFOP, IDX}` (R52). -/
def bfWord (bfop : BitVec 2) (idx : Byte) : BitVec 10 := bfop ++ idx

/-! ### Decoding -/

/-- Decode a CALC word from OP alone (R54) under the OPCODE_MAP `m`; any code but the five is undefined (R51). -/
def decodeCalc (m : OpcodeMap) (w : BitVec 24) : Except Reject Instr :=
  if opField w = m.or then .ok (.or (aField w) (bField w))
  else if opField w = m.and then .ok (.and (aField w) (bField w))
  else if opField w = m.xor then .ok (.xor (aField w) (bField w))
  else if opField w = m.add then .ok (.add (aField w) (bField w))
  else if opField w = m.sub then .ok (.sub (aField w) (bField w))
  else .error (.undefinedOperation (opField w))

/-- Decode a BF word from BFOP alone (R54): 0 set, 1 clear, 2 read, 3 reserved (R52, R53). -/
def decodeBf (w : BitVec 10) : Except Reject Instr :=
  if bfopField w = 0#2 then .ok (.set (idxField w))
  else if bfopField w = 1#2 then .ok (.clear (idxField w))
  else if bfopField w = 2#2 then .ok (.read (idxField w))
  else .error (.undefinedBitOp (bfopField w))

/-- The decoder under an OPCODE_MAP `m`. -/
def decodeWith (m : OpcodeMap) : CommandWord → Except Reject Instr
  | .calc24 w => decodeCalc m w
  | .bf10 w => decodeBf w

/-- The decoder under the default OPCODE_MAP: total on every command word, rejecting by name. -/
def decode (w : CommandWord) : Except Reject Instr := decodeWith opcodeMap w

/-! ### Encoding -/

/-- The command word of an instruction under an OPCODE_MAP `m` (R48, R49, R52). -/
def encodeWith (m : OpcodeMap) : Instr → CommandWord
  | .or a b => .calc24 (calcWord m.or a b)
  | .and a b => .calc24 (calcWord m.and a b)
  | .xor a b => .calc24 (calcWord m.xor a b)
  | .add a b => .calc24 (calcWord m.add a b)
  | .sub a b => .calc24 (calcWord m.sub a b)
  | .set idx => .bf10 (bfWord 0#2 idx)
  | .clear idx => .bf10 (bfWord 1#2 idx)
  | .read idx => .bf10 (bfWord 2#2 idx)

/-- The command word of an instruction under the default OPCODE_MAP. -/
def encode (i : Instr) : CommandWord := encodeWith opcodeMap i

/-! ### The opcode table's numbering -/

/-- The command word whose bits spec/opcode_table.json numbers as `w`, bit 0 the least significant: a row of 24 bits is
a CALC24 word; a row of 10 bits, which fills 16 when counted in whole bytes, is a BF10 word, and its bits above 9 must
be 0 because the word has no such bits (log entry 9). -/
def tableCommand (nbits w : Nat) : Option CommandWord :=
  if nbits = 24 then
    if w < 2 ^ 24 then some (.calc24 (BitVec.ofNat 24 w)) else none
  else if nbits = 10 ∨ nbits = 16 then
    if w < 2 ^ 10 then some (.bf10 (BitVec.ofNat 10 w)) else none
  else none

/-- The instruction the decoder reads from a word numbered as the opcode table numbers it. -/
def decodeTableWord (nbits w : Nat) : Option Instr :=
  match tableCommand nbits w with
  | none => none
  | some c =>
    match decode c with
    | .ok i => some i
    | .error _ => none

end Sys2Proof
end

