-- ==== Sys2Proof/Machine/State.lean ====
section
/-! DEFINITION. The state of one block instance (R14, R15, R29), with the model's own record of what the host has issued and
has been handed (R112, R117), and the reasons a step can stop. -/

namespace Sys2Proof.Machine

/-- A W-bit value on the data ports REG and REG_OUT (R36, R52). `top` is W - 1, the number of the highest bit of
REG[W-1:0], so that W ranges over exactly 1 to 256 (R8, D8; log entry 10). -/
structure RegValue where
  top   : Fin 256
  value : BitVec (top.val + 1)
  deriving DecidableEq, Repr

/-- W, the width of the value (R8). -/
def RegValue.width (r : RegValue) : Nat := r.top.val + 1

/-- The three fault reasons (R96). A fault is a model record of an input outside the source's domain, where the hardware
is undefined (R97, U12). A transaction that raises one ends in a next state that holds it in the fault mark, and a step
from such a state answers `.fault` with it. Stopping is safe: the model refuses runs the hardware may continue. -/
inductive Fault where
  /-- Raised by a CALC whose OP is none of the five codes (R51, R96). Safe. -/
  | undefinedOperation (op : Byte)
  /-- Raised by a bit-field transaction with BFOP = 3 (R53, R96). Safe. -/
  | undefinedBitOp (bfop : BitVec 2)
  /-- Raised by set, clear and read when IDX >= W (R53, R96). Safe. -/
  | bitIndexOutOfRange (idx : Byte) (w : Nat)
  deriving DecidableEq, Repr

/-- Why a step has no meaning. -/
inductive Refusal where
  /-- Answered by `exec` for an instruction without a meaning; no arm of this model does so. Safe. -/
  | notModelled (mnemonic : String)
  /-- Answered by `step` when the host has issued no further transaction: the run has ended (R117; log entry 5). Safe. -/
  | noTransaction
  /-- Answered by `stepInstance` when no instance has this number (log entry 14). Safe. -/
  | noInstance (k : Nat)
  deriving DecidableEq, Repr

/-- One host transaction (R14), as the host presents it on the ports (R36). -/
inductive Transaction where
  /-- A CALC: the ports OP, A and B, packed as the command word `{OP, A, B}` (R49). -/
  | calculate (word : BitVec 24)
  /-- A bit-field transaction: BFOP and IDX, packed as `{BFOP, IDX}`, and the data port REG of W bits (R52). -/
  | bitField (word : BitVec 10) (reg : RegValue)
  /-- A host read of SR (R21). -/
  | readSR
  /-- A host write of SR (R22). -/
  | writeSR (v : Byte)
  /-- A reset (R107). -/
  | reset
  deriving DecidableEq, Repr

/-- What a completed transaction hands the host (R112's table). -/
inductive Output where
  /-- Y, from a CALC (R78). -/
  | y (v : Byte)
  /-- REG_OUT, from set and clear (R65, R66). -/
  | regOut (r : RegValue)
  /-- BIT, from read (R67). -/
  | bit (b : BitVec 1)
  /-- The 8 bits of SR, from a host read of SR (R21). -/
  | srValue (v : Byte)
  /-- Nothing, from a host write of SR and from a reset (R112). -/
  | nothing
  deriving DecidableEq, Repr

/-- The machine. `sr` is the architectural state and nothing else is (R15); `faultMark` is the spec's bookkeeping item
(R29). The other three fields are the model's own (log entries 1, 2 and 3): they carry what comes from and goes to the
host, which the spec gives no storage. -/
structure State where
  /-- SR: S, N, Z, V, C in bits 4 to 0 and the reserved bits 7:5 (R18, R19). -/
  sr : Byte
  /-- The fault mark: none, or one fault reason with its info (R29). -/
  faultMark : Option Fault
  /-- The value on the data port REG, presented by the latest bit-field transaction (R36; log entry 3). -/
  regPort : RegValue
  /-- The transactions the host has issued and the block has not yet performed, in issue order (R40; log entry 1). -/
  pending : List Transaction
  /-- What the completed transactions handed the host, oldest first, one entry each (R117; log entry 2). -/
  outputs : List Output
  deriving DecidableEq, Repr

/-- The idle value of the port REG at reset: no transaction reads it (log entry 3, DESIGN CHOICE). W = 256, so that every
IDX is in range. -/
def RegValue.idle : RegValue := ⟨255, 0⟩

/-- The instance after reset: SR = 0x00 and fault mark none (R31, D6; log entry 11), nothing issued and nothing handed
out. -/
def State.reset : State where
  sr := 0x00#8
  faultMark := none
  regPort := RegValue.idle
  pending := []
  outputs := []

end Sys2Proof.Machine
end

