-- ==== Sys2Proof/Machine/Operands.lean ====
section
/-! DEFINITION. The values the operations compute with: the bit-field primitives on a register of any width (R65 to R67),
the zero-extension of operands (R50, R72), the widened intermediate of each CALC operation (R84 to R87, R89), and the making
and reading of W-bit port values. The intermediate takes its width as an argument so that R80 can be stated; the machine
uses Config.IW. -/

namespace Sys2Proof.Machine

/-! ### The bit-field primitives -/

/-- `set(r, k)`: REG | (zext_W(1) << IDX) (R65). -/
def bitSet {w : Nat} (r : BitVec w) (k : Nat) : BitVec w := r ||| (1#w <<< k)

/-- `clear(r, k)`: REG & ~(zext_W(1) << IDX) (R66). -/
def bitClear {w : Nat} (r : BitVec w) (k : Nat) : BitVec w := r &&& ~~~(1#w <<< k)

/-- `read(r, k)`: REG[IDX] (R67). -/
def bitRead {w : Nat} (r : BitVec w) (k : Nat) : Bool := r.getLsbD k

/-! ### The widened intermediates -/

/-- zext_IW of an operand: never sign-extended, scaled or shifted (R50). -/
def zext (iw : Nat) (x : Byte) : BitVec iw := x.setWidth iw

/-- OR: t <- zext_IW(A) | zext_IW(B) (R84). -/
def orWide (iw : Nat) (a b : Byte) : BitVec iw := zext iw a ||| zext iw b

/-- AND: t <- zext_IW(A) & zext_IW(B) (R85). -/
def andWide (iw : Nat) (a b : Byte) : BitVec iw := zext iw a &&& zext iw b

/-- XOR: t <- zext_IW(A) ^ zext_IW(B) (R86). -/
def xorWide (iw : Nat) (a b : Byte) : BitVec iw := zext iw a ^^^ zext iw b

/-- ADD: t <- zext_IW(A) + zext_IW(B), in 0..510, with no carry-in (R87). -/
def addWide (iw : Nat) (a b : Byte) : BitVec iw := zext iw a + zext iw b

/-- SUB's intermediate as a mathematical integer: A - B, plus 256 if A <u B, exactly as R89 computes it and R90 demands;
no wide two's-complement subtraction stands for it. -/
def subExact (a b : Byte) : Int :=
  if a.toNat < b.toNat then (a.toNat : Int) - (b.toNat : Int) + 256 else (a.toNat : Int) - (b.toNat : Int)

/-- SUB: the adjusted difference, now in 0..255, as an IW-bit value (R89, R91). -/
def subWide (iw : Nat) (a b : Byte) : BitVec iw := BitVec.ofInt iw (subExact a b)

/-- Y <- t[7:0] (R78). -/
def resultByte {iw : Nat} (t : BitVec iw) : Byte := t.extractLsb' 0 8

/-! ### W-bit port values -/

/-- Bit k of a port value (R10). -/
def RegValue.bitAt (r : RegValue) (k : Nat) : Bool := bitRead r.value k

/-- The W-bit port value of a number, for W from 1 to 256. -/
def RegValue.ofNat (w v : Nat) : RegValue := ⟨Fin.ofNat 256 (w - 1), BitVec.ofNat _ v⟩

/-- SR's 8 bits as a REG value of width 8, for a host that applies a bit-field operation to SR (R45, R64). -/
def RegValue.ofByte (v : Byte) : RegValue := ⟨7, v⟩

/-- REG_OUT of set (R65): the same width, bit IDX set. -/
def RegValue.withBitSet (r : RegValue) (idx : Byte) : RegValue := ⟨r.top, bitSet r.value idx.toNat⟩

/-- REG_OUT of clear (R66): the same width, bit IDX cleared. -/
def RegValue.withBitClear (r : RegValue) (idx : Byte) : RegValue := ⟨r.top, bitClear r.value idx.toNat⟩

/-- BIT of read (R67, D9; log entry 12): 1 if the bit is set, else 0. -/
def RegValue.bitOut (r : RegValue) (idx : Byte) : BitVec 1 := BitVec.ofBool (bitRead r.value idx.toNat)

end Sys2Proof.Machine
end

