-- ==== Sys2Proof/Machine/Flags.lean ====
section
/-! DEFINITION. The status register's flags: their places (R18), V of ADD and SUB (R87, R89), and the flag derivation that is
uniform over the five operations (R71, R73 to R77). Every flag is read and written with the bit-field primitives (R68). -/

namespace Sys2Proof.Machine

/-! ### The places of the flags (R18) -/

/-- C, Carry: SR[0]. -/
def cBit : Nat := 0
/-- V, Overflow: SR[1]. -/
def vBit : Nat := 1
/-- Z, Zero: SR[2]. -/
def zBit : Nat := 2
/-- N, Negative: SR[3]. -/
def nBit : Nat := 3
/-- S, Signed: SR[4]. -/
def sBit : Nat := 4

/-- C of a status byte (R18). -/
def flagC (sr : Byte) : Bool := sr.getLsbD 0
/-- V of a status byte (R18). -/
def flagV (sr : Byte) : Bool := sr.getLsbD 1
/-- Z of a status byte (R18). -/
def flagZ (sr : Byte) : Bool := sr.getLsbD 2
/-- N of a status byte (R18). -/
def flagN (sr : Byte) : Bool := sr.getLsbD 3
/-- S of a status byte (R18). -/
def flagS (sr : Byte) : Bool := sr.getLsbD 4
/-- The reserved bits SR[7:5] (R19). -/
def reservedBits (sr : Byte) : BitVec 3 := sr.extractLsb' 5 3

/-! ### Overflow -/

/-- ADD's V: A[7] == B[7] and t[7] != A[7] (R87). -/
def addOverflow {iw : Nat} (a b : Byte) (t : BitVec iw) : Bool :=
  bitRead a 7 == bitRead b 7 && bitRead t 7 != bitRead a 7

/-- SUB's V: A[7] != B[7] and t[7] == B[7] (R89). -/
def subOverflow {iw : Nat} (a b : Byte) (t : BitVec iw) : Bool :=
  bitRead a 7 != bitRead b 7 && bitRead t 7 == bitRead b 7

/-! ### The derivation -/

/-- `if c: SR[k] <- 1` (R79's flag writes, each a set(SR, k): R68). -/
def setWhen (c : Bool) (sr : Byte) (k : Nat) : Byte := if c then bitSet sr k else sr

/-- SR after a CALC with intermediate `t` and overflow `v`: cleared whole (R71), then V (R73), C = t[8] (R74),
Z = (t == 0) on the full intermediate (R75), N = t[7] (R76), and last S = N xor V (R77), in R79's order. -/
def derivedSR {iw : Nat} (t : BitVec iw) (v : Bool) : Byte :=
  let sr := setWhen v 0x00#8 vBit
  let sr := setWhen (bitRead t 8) sr cBit
  let sr := setWhen (t == 0#iw) sr zBit
  let sr := setWhen (bitRead t 7) sr nBit
  setWhen (bitRead sr nBit ^^ bitRead sr vBit) sr sBit

end Sys2Proof.Machine
end

