-- ==== Sys2Proof/Machine/Ops.lean ====
section
/-! DEFINITION. The named operations over the state, which every meaning and every host access goes through: delivering an
output, writing SR, presenting REG, raising a fault, resetting, finishing a CALC, and checking a bit index. The block has no
memory (R32, R33), so there is no operation over one. -/

namespace Sys2Proof.Machine

/-- The answer of a step of this machine. -/
abbrev Answer := Host.Outcome State Fault Refusal

/-- Hand `o` to the host: the transaction completes with this output (R25, R112; log entry 2). -/
def State.deliver (o : Output) (s : State) : State := { s with outputs := s.outputs ++ [o] }

/-- SR <- v, the whole register (R10's notation, R22). -/
def State.writeSR (v : Byte) (s : State) : State := { s with sr := v }

/-- The host presents REG, of W bits, on the data port (R36, R52). -/
def State.presentReg (r : RegValue) (s : State) : State := { s with regPort := r }

/-- The host issues one more transaction, after those already issued (R40, R112; log entry 1). -/
def State.issue (t : Transaction) (s : State) : State := { s with pending := s.pending ++ [t] }

/-- The transactions still to be performed become `ts`. -/
def State.withPending (ts : List Transaction) (s : State) : State := { s with pending := ts }

/-- The fault mark is set to `f` (R29, R97). -/
def State.markFault (f : Fault) (s : State) : State := { s with faultMark := some f }

/-- Reset of the instance (R107, R31): SR = 0x00 and fault mark none; "No other state exists to reset". -/
def State.resetInstance (s : State) : State := { s with sr := State.reset.sr, faultMark := State.reset.faultMark }

/-- A launch: the host resets an instance and issues `ts` (R107, R117). A faulted launch is never continued; this is how
another one begins, whatever state the last one ended in (log entry 13). -/
def State.launch (ts : List Transaction) : State := State.reset.withPending ts

/-- TAKING AN EXCEPTION, `raise F(info)` (R97): the fault mark is set to F with its info, no SR bit is written and no
output is delivered. The block has no trap entry: nothing is saved and there is no vector and no mode (R100), hence no
return either (R101). The next step of the marked state stops with `.fault` (R97; log entry 4). -/
def raise (f : Fault) (s : State) : Answer := .next (s.markFault f)

/-- The number R96 gives a fault reason. -/
def Fault.code : Fault → Nat
  | .undefinedOperation _ => 1
  | .undefinedBitOp _ => 2
  | .bitIndexOutOfRange _ _ => 3

/-- The fault a rejected command word raises (R51, R53, R96). -/
def rejectFault : Reject → Fault
  | .undefinedOperation op => .undefinedOperation op
  | .undefinedBitOp bfop => .undefinedBitOp bfop

/-- What the five CALC operations share once `t` and V are computed: SR is cleared and rewritten whole, and Y = t[7:0] is
delivered (R69, R71, R73 to R79). -/
def finishCalc {iw : Nat} (t : BitVec iw) (v : Bool) (s : State) : Answer :=
  .next ((s.writeSR (derivedSR t v)).deliver (.y (resultByte t)))

/-- What the three bit-field operations share: the check IDX >= W, made before anything is computed (R53, R64), then the
delivery of `out`, computed from the value on the port REG. No state is written (R64). -/
def withBitIndex (idx : Byte) (out : RegValue → Output) (s : State) : Answer :=
  if s.regPort.width ≤ idx.toNat then raise (.bitIndexOutOfRange idx s.regPort.width) s
  else .next (s.deliver (out s.regPort))

end Sys2Proof.Machine
end

