-- ==== Sys2Proof/Machine/Arithmetic.lean ====
section
/-! DEFINITION. The arithmetic operations ADD and SUB (R87 to R94). -/

namespace Sys2Proof.Machine

/-- ADD A, B: no carry-in (R87). -/
def execAdd (a b : Byte) (s : State) : Host.Outcome State Fault Refusal :=
  let t := addWide Config.IW a b
  finishCalc t (addOverflow a b t) s

/-- SUB A, B: the unsigned comparison, the +256 adjustment, then flag extraction (R89, R90; 90_conflicts.md C1, C3). -/
def execSub (a b : Byte) (s : State) : Host.Outcome State Fault Refusal :=
  let t := subWide Config.IW a b
  finishCalc t (subOverflow a b t) s

end Sys2Proof.Machine
end

