-- ==== Sys2Proof/Machine/BitField.lean ====
section
/-! DEFINITION. The bit-field operations set, clear and read (R64 to R67), on the W-bit value the host presents on the port
REG. They write neither SR nor any other state (R64). -/

namespace Sys2Proof.Machine

/-- set REG, IDX (R65): REG_OUT is delivered. -/
def execSet (idx : Byte) (s : State) : Host.Outcome State Fault Refusal :=
  withBitIndex idx (fun r => .regOut (r.withBitSet idx)) s

/-- clear REG, IDX (R66): REG_OUT is delivered. -/
def execClear (idx : Byte) (s : State) : Host.Outcome State Fault Refusal :=
  withBitIndex idx (fun r => .regOut (r.withBitClear idx)) s

/-- read REG, IDX (R67): BIT is delivered. -/
def execRead (idx : Byte) (s : State) : Host.Outcome State Fault Refusal :=
  withBitIndex idx (fun r => .bit (r.bitOut idx)) s

end Sys2Proof.Machine
end

