-- ==== Sys2Proof/Machine/Logical.lean ====
section
/-! DEFINITION. The logical operations OR, AND and XOR (R83 to R86): V is never written, so it stays the 0 of R71. -/

namespace Sys2Proof.Machine

/-- OR A, B (R84). -/
def execOr (a b : Byte) (s : State) : Host.Outcome State Fault Refusal :=
  finishCalc (orWide Config.IW a b) false s

/-- AND A, B (R85). -/
def execAnd (a b : Byte) (s : State) : Host.Outcome State Fault Refusal :=
  finishCalc (andWide Config.IW a b) false s

/-- XOR A, B (R86). -/
def execXor (a b : Byte) (s : State) : Host.Outcome State Fault Refusal :=
  finishCalc (xorWide Config.IW a b) false s

end Sys2Proof.Machine
end

