-- ==== Sys2Proof/Machine/Dispatch.lean ====
section
/-! DEFINITION. One arm per instruction, each one call of its meaning. -/

namespace Sys2Proof.Machine

/-- The effect of an accepted and decoded command; acceptance is `step`'s (R97). -/
def exec (i : Instr) (s : State) : Host.Outcome State Fault Refusal :=
  match i with
  | .or a b => Sys2Proof.Machine.execOr a b s
  | .and a b => Sys2Proof.Machine.execAnd a b s
  | .xor a b => Sys2Proof.Machine.execXor a b s
  | .add a b => Sys2Proof.Machine.execAdd a b s
  | .sub a b => Sys2Proof.Machine.execSub a b s
  | .set idx => Sys2Proof.Machine.execSet idx s
  | .clear idx => Sys2Proof.Machine.execClear idx s
  | .read idx => Sys2Proof.Machine.execRead idx s

end Sys2Proof.Machine
end

