-- ==== Sys2Proof/Machine/Transact.lean ====
section
/-! DEFINITION. Performing a host transaction (R14): a command word is decoded and run, SR is read or written by the host
(R21, R22), the instance is reset (R107). `acceptNext` is one step of the machine: one transaction, atomic (R36), in issue
order (R40). The numeric codes are the open parameter OPCODE_MAP (R9, D3), so whatever decodes a command word takes the map as
an argument. -/

namespace Sys2Proof.Machine

/-- Decode a command word under the OPCODE_MAP `m` (R9) and run it; an undefined one raises its fault (R51, R53, R97). Decoding stands before the index
check of the meanings, so that BFOP = 3 is reported before IDX >= W (R98). -/
def runCommand (m : OpcodeMap) (w : CommandWord) (s : State) : Answer :=
  match decodeWith m w with
  | .ok i => exec i s
  | .error r => raise (rejectFault r) s

/-- A host read of SR: all 8 bits, changing no state (R21). -/
def hostReadSR (s : State) : Answer := .next (s.deliver (.srValue s.sr))

/-- A host write of SR: any 8-bit value, the reserved bits with it (R20, R22). -/
def hostWriteSR (v : Byte) (s : State) : Answer := .next ((s.writeSR v).deliver .nothing)

/-- A reset by the host (R107; log entry 13). -/
def hostReset (s : State) : Answer := .next (s.resetInstance.deliver .nothing)

/-- Perform one transaction (R14) under the OPCODE_MAP `m` (R9). -/
def transact (m : OpcodeMap) (t : Transaction) (s : State) : Answer :=
  match t with
  | .calculate w => runCommand m (.calc24 w) s
  | .bitField w r => runCommand m (.bf10 w) (s.presentReg r)
  | .readSR => hostReadSR s
  | .writeSR v => hostWriteSR v s
  | .reset => hostReset s

/-- One step under the OPCODE_MAP `m` (R9): a faulted state is final and stops with its fault (R97); with nothing issued the run has ended (R117; log
entry 5); else the oldest issued transaction is taken and performed (R40). -/
def acceptNext (m : OpcodeMap) (s : State) : Answer :=
  match s.faultMark with
  | some f => .fault f
  | none =>
    match s.pending with
    | [] => .refused .noTransaction
    | t :: rest => transact m t (s.withPending rest)

/-- The transaction by which the host issues the instruction `i`, encoded under the OPCODE_MAP `m` (R9), with `r` on the port
REG if it is a bit-field operation (R36, R52). -/
def issueAs (m : OpcodeMap) (i : Instr) (r : RegValue) : Transaction :=
  match encodeWith m i with
  | .calc24 w => .calculate w
  | .bf10 w => .bitField w r

/-- The transaction that presents a word of the opcode table's numbering; a bit-field word comes with the value that stands
on the port REG (log entries 3 and 9). -/
def tableTransaction (nbits w : Nat) (s : State) : Option Transaction :=
  match tableCommand nbits w with
  | none => none
  | some (.calc24 c) => some (.calculate c)
  | some (.bf10 c) => some (.bitField c s.regPort)

/-- The state in which the very next step performs that word: it is issued ahead of everything pending, in a launch that
has not faulted. Bits that are no command word leave nothing issued (log entries 1 and 15). -/
def presentTableWord (nbits w : Nat) (s : State) : State :=
  match tableTransaction nbits w s with
  | none => s.withPending []
  | some t => { s with faultMark := none, pending := t :: s.pending }

end Sys2Proof.Machine
end

