-- ==== Sys2Proof/Machine/Step.lean ====
section
/-! DEFINITION. The step of one instance under an OPCODE_MAP and under the default one, and the placing of a command word where the next step takes it. -/

namespace Sys2Proof.Machine

/-- One transaction per step (R14), on a block whose numeric operation codes are the OPCODE_MAP `m` (R9, D3; log entry 6). -/
def stepWith (m : OpcodeMap) (s : State) : Host.Outcome State Fault Refusal := acceptNext m s

/-- The step under the default OPCODE_MAP (R48). -/
def step (s : State) : Host.Outcome State Fault Refusal := stepWith opcodeMap s

/-- `s` with the command word that spec/opcode_table.json numbers as `w` presented as the next transaction. The block
fetches nothing (R44): a program is a list of transactions the host issues, and this stands for that (log entry 1). -/
def State.withFetchWord (s : State) (nbits w : Nat) : State := presentTableWord nbits w s

end Sys2Proof.Machine

namespace Sys2Proof

/-- The machine of each OPCODE_MAP (R9); `core` is that of the default map. -/
def coreWith (m : OpcodeMap) : Host.Core where
  State := Machine.State
  Fault := Machine.Fault
  Refusal := Machine.Refusal
  step := Machine.stepWith m
  reset := Machine.State.reset

end Sys2Proof
end

