-- ==== Sys2Proof/Machine/Observe.lean ====
section
/-! DEFINITION. Observation functions, which are no hardware (R13, D21): the signed views of a result (R11, R12), a status
byte from its five flags and the flag string (R63), and the operation-name lookups (R55 to R58). -/

namespace Sys2Proof.Machine

/-- sval8(v) = v - 256 if v[7] == 1, else v (R11). -/
def sval8 (v : Byte) : Int := if bitRead v 7 then (v.toNat : Int) - 256 else (v.toNat : Int)

/-- sval8S(v, sr) = v - 256 if sr[4] == 1, else v (R12): it reads the S flag, not bit 7 of v. -/
def sval8S (v sr : Byte) : Int := if flagS sr then (v.toNat : Int) - 256 else (v.toNat : Int)

/-- The status byte whose flags are S, N, Z, V, C and whose reserved bits are 0 (R18). -/
def srOf (sF nF zF vF cF : Bool) : Byte :=
  0#3 ++ BitVec.ofBool sF ++ BitVec.ofBool nF ++ BitVec.ofBool zF ++ BitVec.ofBool vF ++ BitVec.ofBool cF

/-- One flag as text. -/
def flagChar (b : Bool) : Char := if b then '1' else '0'

/-- "the 5-bit flag string in order S,N,Z,V,C" (R63), as its characters. -/
def flagString (sr : Byte) : List Char :=
  [flagChar (flagS sr), flagChar (flagN sr), flagChar (flagZ sr), flagChar (flagV sr), flagChar (flagC sr)]

/-- operation_name (R55, R57), under an OPCODE_MAP (R9): total, with "Unknown" for NOP and every undefined code. -/
def operationNameWith (m : OpcodeMap) (op : Byte) : String :=
  if op = m.or then "OR"
  else if op = m.and then "AND"
  else if op = m.xor then "XOR"
  else if op = m.add then "ADD"
  else if op = m.sub then "SUB"
  else "Unknown"

/-- operation_name (R55, R57) under the default OPCODE_MAP (R48). -/
def operationName (op : Byte) : String := operationNameWith opcodeMap op

/-- operator_symbol (R56, R57), under an OPCODE_MAP (R9): total, with "Unknown" for NOP and every undefined code. -/
def operatorSymbolWith (m : OpcodeMap) (op : Byte) : String :=
  if op = m.or then "|"
  else if op = m.and then "&"
  else if op = m.xor then "^"
  else if op = m.add then "+"
  else if op = m.sub then "-"
  else "Unknown"

/-- operator_symbol (R56, R57) under the default OPCODE_MAP (R48). -/
def operatorSymbol (op : Byte) : String := operatorSymbolWith opcodeMap op

/-- parse_operation (R58), under an OPCODE_MAP (R9): case-sensitive exact match of the five names; any other text maps to NOP. -/
def parseOperationWith (m : OpcodeMap) (name : String) : Byte :=
  if name = "OR" then m.or
  else if name = "AND" then m.and
  else if name = "XOR" then m.xor
  else if name = "ADD" then m.add
  else if name = "SUB" then m.sub
  else m.nop

/-- parse_operation (R58) under the default OPCODE_MAP (R48). -/
def parseOperation (name : String) : Byte := parseOperationWith opcodeMap name

end Sys2Proof.Machine
end

