-- ==== Sys2Proof/Machine/Assembler.lean ====
section
/-! DEFINITION. The assembler syntax (R55 to R62): one line of text, as its characters, to the transaction it writes. It is
notation and no hardware (D19); where the spec leaves the spelling open (spaces, leading zeros, the case of hexadecimal
digits), log entry 16 says what is read. -/

namespace Sys2Proof.Machine

/-- Why a line is rejected: "an assembler reports an error for the line and emits nothing" (R59). -/
inductive AsmError where
  /-- The mnemonic is none of the eight; for a CALC, parse_operation gave NOP (R59). -/
  | unknownOperation
  /-- The width is not a decimal from 1 to 256 (R8, R61). -/
  | badWidth
  /-- An operand's text or range, or the line's shape, is not that of R60 or R61. -/
  | badOperands
  deriving DecidableEq, Repr

/-! ### Numbers -/

/-- The value of a decimal digit. -/
def decDigit (c : Char) : Option Nat :=
  if '0'.toNat ≤ c.toNat ∧ c.toNat ≤ '9'.toNat then some (c.toNat - '0'.toNat) else none

/-- The value of a hexadecimal digit, of either case (log entry 16). -/
def hexDigit (c : Char) : Option Nat :=
  if '0'.toNat ≤ c.toNat ∧ c.toNat ≤ '9'.toNat then some (c.toNat - '0'.toNat)
  else if 'a'.toNat ≤ c.toNat ∧ c.toNat ≤ 'f'.toNat then some (c.toNat - 'a'.toNat + 10)
  else if 'A'.toNat ≤ c.toNat ∧ c.toNat ≤ 'F'.toNat then some (c.toNat - 'A'.toNat + 10)
  else none

/-- Read digits of a base for as long as there are any, after those already worth `acc`. -/
def readDigits (digit : Char → Option Nat) (base acc : Nat) : List Char → Nat × List Char
  | [] => (acc, [])
  | c :: cs =>
    match digit c with
    | some d => readDigits digit base (acc * base + d) cs
    | none => (acc, c :: cs)

/-- A number of at least one digit, and the text after it. -/
def readNumeral (digit : Char → Option Nat) (base : Nat) : List Char → Option (Nat × List Char)
  | [] => none
  | c :: cs =>
    match digit c with
    | some d => some (readDigits digit base d cs)
    | none => none

/-- A decimal number. -/
def readDecimal (cs : List Char) : Option (Nat × List Char) := readNumeral decDigit 10 cs

/-- A decimal number, or a hexadecimal one after 0x. -/
def readUnsigned : List Char → Option (Nat × List Char)
  | '0' :: 'x' :: cs => readNumeral hexDigit 16 cs
  | cs => readDecimal cs

/-- A CALC operand: 0 to 255, 0x00 to 0xFF, or -128 to -1 denoting v + 256 (R60). -/
def readOperand : List Char → Option (Byte × List Char)
  | '-' :: cs =>
    match readDecimal cs with
    | some (n, rest) => if 1 ≤ n ∧ n ≤ 128 then some (BitVec.ofNat 8 (256 - n), rest) else none
    | none => none
  | cs =>
    match readUnsigned cs with
    | some (n, rest) => if n ≤ 255 then some (BitVec.ofNat 8 n, rest) else none
    | none => none

/-- The character of a decimal digit. -/
def digitChar (d : Nat) : Char := Char.ofNat ('0'.toNat + d)

/-- The decimal digits of `n`, the highest first, at most `fuel` of them. -/
def decimalDigits : Nat → Nat → List Char
  | 0, _ => []
  | fuel + 1, n => if n < 10 then [digitChar n] else decimalDigits fuel (n / 10) ++ [digitChar (n % 10)]

/-- The decimal spelling of a number, as a line writes it. -/
def decimal (n : Nat) : List Char := decimalDigits (n + 1) n

/-! ### Lines -/

/-- The text before the first `stop`, and the text after it if there is one. -/
def splitAt (stop : Char) : List Char → List Char × Option (List Char)
  | [] => ([], none)
  | c :: cs =>
    if c = stop then ([], some cs)
    else (c :: (splitAt stop cs).1, (splitAt stop cs).2)

/-- `<a>, <b>` to the two operands of a CALC (R60). -/
def calcOperands (cs : List Char) : Option (Byte × Byte) :=
  match readOperand cs with
  | some (a, ',' :: ' ' :: rest) =>
    match readOperand rest with
    | some (b, []) => some (a, b)
    | _ => none
  | _ => none

/-- `<reg>, <idx>` of a bit-field line at width `w`: REG is 0 to 2^W - 1, IDX a decimal 0 to W - 1 (R61). -/
def bfOperands (w : Nat) (cs : List Char) : Option (RegValue × Byte) :=
  match readUnsigned cs with
  | some (reg, ',' :: ' ' :: rest) =>
    match readDecimal rest with
    | some (idx, []) =>
      if reg < 2 ^ w ∧ idx < w then some (RegValue.ofNat w reg, BitVec.ofNat 8 idx) else none
    | _ => none
  | _ => none

/-- BFOP of a bit-field function name (R52, R61). -/
def bfopOf (name : List Char) : Option (BitVec 2) :=
  if name = ['s', 'e', 't'] then some 0#2
  else if name = ['c', 'l', 'e', 'a', 'r'] then some 1#2
  else if name = ['r', 'e', 'a', 'd'] then some 2#2
  else none

/-- The width of a bit-field line: 8 when it is omitted, else a decimal from 1 to 256 (R8, R61). -/
def bfWidth : Option (List Char) → Option Nat
  | none => some 8
  | some cs =>
    match readDecimal cs with
    | some (w, []) => if 1 ≤ w ∧ w ≤ 256 then some w else none
    | _ => none

/-- The five names of parse_operation are compared as text (R58). -/
def calcCodeOf (m : OpcodeMap) (name : List Char) : Byte := parseOperationWith m (String.ofList name)

/-- Assemble one line under the OPCODE_MAP `m` (R9): a CALC (R60), a bit-field transaction (R61), or an error and nothing (R59). -/
def assembleWith (m : OpcodeMap) (line : List Char) : Except AsmError Transaction :=
  match splitAt ' ' line with
  | (_, none) => .error .unknownOperation
  | (word, some operands) =>
    match bfopOf (splitAt '.' word).1 with
    | some bfop =>
      match bfWidth (splitAt '.' word).2 with
      | none => .error .badWidth
      | some w =>
        match bfOperands w operands with
        | some (reg, idx) => .ok (.bitField (bfWord bfop idx) reg)
        | none => .error .badOperands
    | none =>
      if calcCodeOf m word = m.nop then .error .unknownOperation
      else
        match calcOperands operands with
        | some (a, b) => .ok (.calculate (calcWord (calcCodeOf m word) a b))
        | none => .error .badOperands

/-- Assemble one line under the default OPCODE_MAP (R48). -/
def assemble (line : List Char) : Except AsmError Transaction := assembleWith opcodeMap line

end Sys2Proof.Machine
end

