-- ==== Sys2Proof/Machine/Instances.lean ====
section
/-! DEFINITION. Several instances of the block side by side (R30, R41, R105): each has its own state, and a step is a step of
one of them, chosen by its number. They share no state, have no identifiers of their own and are not ordered with one
another; the number is only the list's (log entry 14). -/

namespace Sys2Proof.Machine

/-- The instances, each with its own SR, fault mark and transactions (R30). -/
abbrev Instances := List State

/-- One step of instance `k` under the OPCODE_MAP `m` (R9); the others do not take part (R30). -/
def stepInstanceWith (m : OpcodeMap) (k : Nat) (is : Instances) : Host.Outcome Instances Fault Refusal :=
  match is[k]? with
  | none => .refused (.noInstance k)
  | some s =>
    match stepWith m s with
    | .next s' => .next (is.set k s')
    | .fault f => .fault f
    | .refused r => .refused r

/-- One step of instance `k` under the default OPCODE_MAP. -/
def stepInstance (k : Nat) (is : Instances) : Host.Outcome Instances Fault Refusal := stepInstanceWith opcodeMap k is

end Sys2Proof.Machine
end

