-- ==== Sys2Proof/Safety.lean ====
section
/-! DEFINITION. What counts as a safe run: the source's domain (R95), the host's duties (R111), a successful end (R117), and the
law of the flags after a calculation (R20, R24), as decidable predicates. -/

namespace Sys2Proof.Machine

/-- The source's domain (R95) under an OPCODE_MAP (R9): for a CALC a legal OP, for a bit-field transaction BFOP in 0..2 with IDX < W. The host's other
accesses are always permitted (R102). -/
def Transaction.inDomainWith (m : OpcodeMap) : Transaction → Bool
  | .calculate w => m.legal (opField w)
  | .bitField w r => decide ((bfopField w).toNat ≤ 2) && decide ((idxField w).toNat < r.width)
  | .readSR => true
  | .writeSR _ => true
  | .reset => true

/-- The domain under the default OPCODE_MAP (R48). -/
def Transaction.inDomain (t : Transaction) : Bool := t.inDomainWith opcodeMap

/-- The host keeps its duties in everything it has issued (R111), under an OPCODE_MAP (R9). -/
def State.dutiesKeptWith (m : OpcodeMap) (s : State) : Bool := s.pending.all (Transaction.inDomainWith m)

/-- The host's duties under the default OPCODE_MAP (R48). -/
def State.dutiesKept (s : State) : Bool := s.dutiesKeptWith opcodeMap

/-- A successful end: every issued transaction has completed, without fault (R117). -/
def State.endedWell (s : State) : Bool := s.pending.isEmpty && s.faultMark.isNone

/-- The law of SR after a CALC: SR[7:5] is 0 (R20), S == N xor V (R24), and Z excludes every other flag (R75). -/
def flagsLawful (sr : Byte) : Bool :=
  reservedBits sr == 0#3 && flagS sr == (flagN sr ^^ flagV sr) && (!flagZ sr || sr == 0x04#8)

/-- The transaction cannot break the law: a host write could, with another value (R22, R24). -/
def Transaction.keepsFlagLaw : Transaction → Bool
  | .calculate _ => true
  | .bitField _ _ => true
  | .readSR => true
  | .writeSR v => flagsLawful v
  | .reset => true

/-- The invariant: SR is lawful, and no issued host write will make it otherwise. -/
def State.flagInv (s : State) : Bool := flagsLawful s.sr && s.pending.all Transaction.keepsFlagLaw

end Sys2Proof.Machine
end

