-- ==== Sys2Proof/Certificates/Slice0/Obligations.lean ====
section
/-! DEFINITION. The statements for the provers. A docstring names the rule of spec/ it formalises, and, where a clause rests on
a choice, the spec's decision D<n> or the model's log entry. The block has no memory and no general registers (R16, R32):
a frame says that the fault mark, the port REG, the pending transactions and, where no CALC runs, SR are unchanged, and that
the outputs grow by exactly what is delivered. Outputs are handed over as entries of `outputs` (log entry 2). -/

namespace Sys2Proof.Claim

open Sys2Proof.Machine

/-- From every state the CALC `i` completes: SR becomes the five flags S, N, Z, V, C with bits 7:5 zero, Y is delivered, and
everything else is as it was. -/
def CalcGives (i : Instr) (y : Byte) (sF nF zF vF cF : Bool) : Prop :=
  ∀ s : State, exec i s = .next { s with sr := srOf sF nF zF vF cF, outputs := s.outputs ++ [.y y] }

/-- The bit-field operation `i` on REG = `r` completes from every state: `o` is delivered and everything else, SR with it,
is as it was. -/
def BitFieldGives (i : Instr) (r : RegValue) (o : Output) : Prop :=
  ∀ s : State, s.regPort = r → exec i s = .next { s with outputs := s.outputs ++ [o] }

/-- The bit-field operation `i` on REG = `r` raises `f` from every state: the mark is set and everything else, SR and the
outputs with it, is as it was (R97). -/
def BitFieldRaises (i : Instr) (r : RegValue) (f : Fault) : Prop :=
  ∀ s : State, s.regPort = r → exec i s = .next { s with faultMark := some f }

/-- The CALC word whose fields are OP, A and B: OP in bits 23:16, A in 15:8, B in 7:0 (R49). -/
def wordOf (op : Nat) (a b : Byte) : CommandWord := .calc24 (BitVec.ofNat 24 (op * 65536 + a.toNat * 256 + b.toNat))

/-- The BF word whose fields are BFOP and IDX: BFOP in bits 9:8, IDX in 7:0 (R52). -/
def bfWordOf (bfop : Nat) (idx : Byte) : CommandWord := .bf10 (BitVec.ofNat 10 (bfop * 256 + idx.toNat))

/-- The widened intermediate of each CALC as a mathematical number (R84 to R87, R89); none for a bit-field operation. -/
def wideNumber : Instr → Option Nat
  | .or a b => some (a.toNat ||| b.toNat)
  | .and a b => some (a.toNat &&& b.toNat)
  | .xor a b => some (a.toNat ^^^ b.toNat)
  | .add a b => some (a.toNat + b.toNat)
  | .sub a b => some (if a.toNat < b.toNat then a.toNat + 256 - b.toNat else a.toNat - b.toNat)
  | .set _ => none
  | .clear _ => none
  | .read _ => none

/-- Whether an exact signed result leaves the range -128..127. -/
def outOfSignedByte (n : Int) : Bool := decide (n < -128) || decide (127 < n)

/-- S == N xor V (R24). -/
def SignLaw (sr : Byte) : Prop := flagS sr = (flagN sr ^^ flagV sr)

end Sys2Proof.Claim

open Sys2Proof Sys2Proof.Machine Sys2Proof.Claim

/-! ### The step -/

/-- R14, R40: the oldest issued transaction is performed; if it is a command word that decodes to `i`, the step is `exec i`
on the state with that transaction taken and, for a bit-field transaction, its REG on the port (log entries 1 and 3). -/
def Obligations.StepRunsTheDecodedCommand : Prop :=
  ∀ (s : State) (rest : List Transaction) (i : Instr), s.faultMark = none →
    (∀ w, s.pending = .calculate w :: rest → decode (.calc24 w) = .ok i →
      step s = exec i { s with pending := rest }) ∧
    (∀ w r, s.pending = .bitField w r :: rest → decode (.bf10 w) = .ok i →
      step s = exec i { s with pending := rest, regPort := r })

/-- A word of the opcode table placed with `withFetchWord` is what the next step runs (log entries 1, 9 and 15). -/
def Obligations.PlacedTableWordIsRunNext : Prop :=
  ∀ (s : State) (nbits w : Nat) (i : Instr), decodeTableWord nbits w = some i →
    step (s.withFetchWord nbits w) = exec i { s with faultMark := none }

/-- R21, R22, R107 (decisions D5, D6): a host read of SR returns its 8 bits and changes no state; a host write stores any
8-bit value; a reset puts 0x00 into SR. -/
def Obligations.HostAccessesOfSR : Prop :=
  ∀ (s : State) (rest : List Transaction), s.faultMark = none →
    (s.pending = .readSR :: rest →
      step s = .next { s with pending := rest, outputs := s.outputs ++ [.srValue s.sr] }) ∧
    (∀ v, s.pending = .writeSR v :: rest →
      step s = .next { s with pending := rest, sr := v, outputs := s.outputs ++ [.nothing] }) ∧
    (s.pending = .reset :: rest →
      step s = .next { s with pending := rest, sr := 0x00#8, outputs := s.outputs ++ [.nothing] })

/-- R31 (decision D6): reset leaves SR = 0x00, so every flag and bits 7:5 are 0, and the fault mark none. -/
def Obligations.ResetStateIsClear : Prop :=
  core.reset = State.reset ∧ State.reset.sr = 0x00#8 ∧ State.reset.faultMark = none ∧
    flagString State.reset.sr = ['0', '0', '0', '0', '0'] ∧ reservedBits State.reset.sr = 0#3

/-- R117: with the last transaction completed the run has ended. That a further step is refused by name is the model's choice
(log entry 5, DESIGN CHOICE). -/
def Obligations.StepAfterTheLastTransactionIsRefused : Prop :=
  ∀ s : State, s.faultMark = none → s.pending = [] → step s = .refused .noTransaction

/-! ### Faults -/

/-- R51, R70, R97 (decision D4): a CALC whose OP is outside 0x01..0x05 sets the mark to UndefinedOperation(OP), writes no SR
bit and delivers nothing. -/
def Obligations.UndefinedOperationRaises : Prop :=
  ∀ (s : State) (rest : List Transaction) (op a b : Byte) (w : BitVec 24), s.faultMark = none →
    s.pending = .calculate w :: rest → CommandWord.calc24 w = wordOf op.toNat a b → (op.toNat = 0 ∨ 5 < op.toNat) →
    step s = .next { s with pending := rest, faultMark := some (.undefinedOperation op) }

/-- R53, R97, R98 (decisions D4, D14): BFOP = 3 sets the mark to UndefinedBitOp(3), whatever IDX and W are, so also when
IDX >= W; no SR bit is written and nothing is delivered. -/
def Obligations.ReservedBitOpRaisesFirst : Prop :=
  ∀ (s : State) (rest : List Transaction) (w : BitVec 10) (r : RegValue) (idx : Byte), s.faultMark = none →
    s.pending = .bitField w r :: rest → CommandWord.bf10 w = bfWordOf 3 idx →
    step s = .next { s with pending := rest, regPort := r, faultMark := some (.undefinedBitOp 3#2) }

/-- R53, R65 to R67, R97 (decisions D4, D8): set, clear and read with IDX >= W set the mark to BitIndexOutOfRange(IDX, W) and
change nothing else. -/
def Obligations.BitIndexOutOfRangeRaises : Prop :=
  ∀ (i : Instr) (idx : Byte) (r : RegValue), i.index = some idx → r.width ≤ idx.toNat →
    BitFieldRaises i r (.bitIndexOutOfRange idx r.width)

/-- R97 (decision D4): the faulted state accepts no further transaction and is final for stepping: every run of at least one
step from it stops with its fault. -/
def Obligations.FaultedStateIsFinal : Prop :=
  ∀ (s : State) (f : Fault), s.faultMark = some f →
    step s = .fault f ∧ ∀ n : Nat, core.run (n + 1) s = .fault f

/-- R95: no transaction whose inputs lie in the domain raises anything: the mark stays none. That the transaction is taken from
the pending list is the model's choice of log entry 1, and that each one, a host write and a reset with it, appends exactly
one output (the entry nothing for those two) is the model's choice of log entry 2 (both DESIGN CHOICE). -/
def Obligations.InDomainTransactionCompletes : Prop :=
  ∀ (s : State) (t : Transaction) (rest : List Transaction), s.faultMark = none → s.pending = t :: rest →
    t.inDomain = true →
    ∃ s' o, step s = .next s' ∧ s'.faultMark = none ∧ s'.pending = rest ∧ s'.outputs = s.outputs ++ [o]

/-- R36, R40, R97, R117: every step that goes on takes exactly the oldest transaction of an unfaulted instance. In the domain
it delivers exactly one output and leaves the mark none; outside it marks a fault, delivers nothing and writes no SR bit. -/
def Obligations.EveryStepCompletesOrMarksAFault : Prop :=
  ∀ s s' : State, step s = .next s' →
    s.faultMark = none ∧ ∃ t, s.pending = t :: s'.pending ∧
      ((t.inDomain = true ∧ s'.faultMark = none ∧ ∃ o, s'.outputs = s.outputs ++ [o]) ∨
       (t.inDomain = false ∧ (∃ f, s'.faultMark = some f) ∧ s'.outputs = s.outputs ∧ s'.sr = s.sr))

/-! ### The CALC operations -/

/-- R84: OR, its encoding under the default OPCODE_MAP (D3, D7), result, flags, corner cases and worked example. -/
def Obligations.OrResultAndFlags : Prop :=
  (∀ a b : Byte, decode (wordOf 0x01 a b) = .ok (.or a b) ∧
    CalcGives (.or a b) (a ||| b) ((a ||| b).getLsbD 7) ((a ||| b).getLsbD 7) ((a ||| b) == 0#8) false false) ∧
  (∀ a : Byte, ∃ sF nF zF vF cF, CalcGives (.or a a) a sF nF zF vF cF) ∧
  CalcGives (.or 0#8 0#8) 0#8 false false true false false ∧
  (∀ a b : Byte, (a.getLsbD 7 || b.getLsbD 7) = true →
    CalcGives (.or a b) (a ||| b) true true false false false) ∧
  (∀ a b : Byte, a ||| b = 0#8 ↔ a = 0#8 ∧ b = 0#8) ∧
  CalcGives (.or 0x20#8 0x01#8) 0x21#8 false false false false false

/-- R85: AND, its encoding under the default OPCODE_MAP (D3, D7), result, flags, corner cases and worked example. -/
def Obligations.AndResultAndFlags : Prop :=
  (∀ a b : Byte, decode (wordOf 0x02 a b) = .ok (.and a b) ∧
    CalcGives (.and a b) (a &&& b) ((a &&& b).getLsbD 7) ((a &&& b).getLsbD 7) ((a &&& b) == 0#8) false false) ∧
  (∀ a : Byte, ∃ sF nF zF vF cF, CalcGives (.and a a) a sF nF zF vF cF) ∧
  (∀ a : Byte, CalcGives (.and a 0#8) 0#8 false false true false false) ∧
  CalcGives (.and 0x80#8 0x80#8) 0x80#8 true true false false false ∧
  (∀ a b : Byte, (∀ k < 8, (a.getLsbD k && b.getLsbD k) = false) →
    CalcGives (.and a b) 0#8 false false true false false) ∧
  CalcGives (.and 0x24#8 0x20#8) 0x20#8 false false false false false

/-- R86: XOR, its encoding under the default OPCODE_MAP (D3, D7), result, flags, corner cases and worked example. -/
def Obligations.XorResultAndFlags : Prop :=
  (∀ a b : Byte, decode (wordOf 0x03 a b) = .ok (.xor a b) ∧
    CalcGives (.xor a b) (a ^^^ b) ((a ^^^ b).getLsbD 7) ((a ^^^ b).getLsbD 7) ((a ^^^ b) == 0#8) false false) ∧
  (∀ a : Byte, CalcGives (.xor a a) 0#8 false false true false false) ∧
  (∀ a : Byte, ∃ sF nF zF vF cF, CalcGives (.xor a 0xFF#8) (~~~a) sF nF zF vF cF) ∧
  (∀ a b : Byte, a ^^^ b = 0#8 ↔ a = b) ∧
  CalcGives (.xor 0xFF#8 0x0F#8) 0xF0#8 true true false false false

/-- R87: ADD, its encoding under the default OPCODE_MAP (D3, D7), the intermediate t = A + B, V from the sign bits, the flags
read from t, the corner cases and the worked example. -/
def Obligations.AddResultAndFlags : Prop :=
  (∀ a b : Byte, decode (wordOf 0x04 a b) = .ok (.add a b)) ∧
  (∀ (a b : Byte) (t : Nat) (v : Bool), t = a.toNat + b.toNat →
    v = (a.getLsbD 7 == b.getLsbD 7 && t.testBit 7 != a.getLsbD 7) →
    CalcGives (.add a b) (BitVec.ofNat 8 t) (t.testBit 7 ^^ v) (t.testBit 7) (t == 0) v (t.testBit 8)) ∧
  CalcGives (.add 0#8 0#8) 0x00#8 false false true false false ∧
  CalcGives (.add 1#8 255#8) 0x00#8 false false false false true ∧
  CalcGives (.add 128#8 128#8) 0x00#8 true false false true true ∧
  CalcGives (.add 127#8 1#8) 0x80#8 false true false true false ∧
  CalcGives (.add 255#8 255#8) 0xFE#8 true true false false true ∧
  (∀ a : Byte, ∃ sF nF zF, CalcGives (.add a a) (BitVec.ofNat 8 (2 * a.toNat % 256)) sF nF zF
    (a.getLsbD 7 != a.getLsbD 6) (a.getLsbD 7)) ∧
  CalcGives (.add 100#8 50#8) 0x96#8 false true false true false

/-- R89, R90: SUB, its encoding under the default OPCODE_MAP (D3, D7), the intermediate t = A - B with 256 added if A <u B,
V from the sign bits, the flags read from t, the corner cases and the worked example as 90_conflicts.md C1 settles it. -/
def Obligations.SubResultAndFlags : Prop :=
  (∀ a b : Byte, decode (wordOf 0x05 a b) = .ok (.sub a b)) ∧
  (∀ (a b : Byte) (t : Nat) (v : Bool),
    (t : Int) = (if a.toNat < b.toNat then (a.toNat : Int) - b.toNat + 256 else (a.toNat : Int) - b.toNat) →
    v = (a.getLsbD 7 != b.getLsbD 7 && t.testBit 7 == b.getLsbD 7) →
    CalcGives (.sub a b) (BitVec.ofNat 8 t) (t.testBit 7 ^^ v) (t.testBit 7) (t == 0) v (t.testBit 8) ∧
      t.testBit 8 = false) ∧
  (∀ a : Byte, CalcGives (.sub a a) 0x00#8 false false true false false) ∧
  CalcGives (.sub 3#8 5#8) 0xFE#8 true true false false false ∧
  CalcGives (.sub 0#8 1#8) 0xFF#8 true true false false false ∧
  CalcGives (.sub 0x80#8 0x01#8) 0x7F#8 true false false true false ∧
  CalcGives (.sub 0x7F#8 0xFF#8) 0x80#8 false true false true false ∧
  CalcGives (.sub 0x00#8 0x80#8) 0x80#8 false true false true false ∧
  CalcGives (.sub 156#8 50#8) 0x6A#8 true false false true false

/-- R74, R77, R78: for every CALC, whatever the operation, C is bit 8 of the widened intermediate, S is N xor V with N its
bit 7, Z says that it is 0, and Y is its low byte; V is 0 unless the operation is ADD or SUB. -/
def Obligations.FlagsAreDerivedUniformly : Prop :=
  ∀ (i : Instr) (t : Nat), wideNumber i = some t →
    ∃ vF : Bool, CalcGives i (BitVec.ofNat 8 t) (t.testBit 7 ^^ vF) (t.testBit 7) (t == 0) vF (t.testBit 8) ∧
      ((∀ a b, i ≠ .add a b ∧ i ≠ .sub a b) → vF = false)

/-- R92: ADD gives Y = (A + B) mod 256 and SUB gives Y = (A - B) mod 256. -/
def Obligations.SumAndDifferenceModulo256 : Prop :=
  ∀ (a b : Byte) (s : State),
    (∃ s' y, exec (.add a b) s = .next s' ∧ s'.outputs = s.outputs ++ [.y y] ∧
      y.toNat = (a.toNat + b.toNat) % 256) ∧
    (∃ s' y, exec (.sub a b) s = .next s' ∧ s'.outputs = s.outputs ++ [.y y] ∧
      (y.toNat : Int) = ((a.toNat : Int) - (b.toNat : Int)) % 256)

/-- R88, with R75's one exception: ADD's flags in closed form over the operands, and Y == 0 with Z == 0 for exactly the pairs
with A + B = 256, all of which set C (the spec's own derivation; 90_conflicts.md C2). -/
def Obligations.AddFlagsInClosedForm : Prop :=
  ∀ a b : Byte,
    CalcGives (.add a b) (a + b) (decide (sval8 a + sval8 b < 0)) (((a.toNat + b.toNat) % 256).testBit 7)
      (decide (a = 0#8) && decide (b = 0#8)) (outOfSignedByte (sval8 a + sval8 b))
      (decide (256 ≤ a.toNat + b.toNat)) ∧
    (a + b = 0#8 ∧ ¬(a = 0#8 ∧ b = 0#8) ↔ a.toNat + b.toNat = 256)

/-- R91: SUB's flags in closed form over the operands; C is 0 for every SUB (the spec's own derivation; 90_conflicts.md C3). -/
def Obligations.SubFlagsInClosedForm : Prop :=
  ∀ a b : Byte,
    CalcGives (.sub a b) (a - b) (decide (sval8 a - sval8 b < 0)) ((a - b).getLsbD 7) (decide (a = b))
      (outOfSignedByte (sval8 a - sval8 b)) false

/-- R93: read through S, the result of ADD and SUB is the exact signed result, and that of OR, AND and XOR is sval8(Y) (the
spec's own derivation). -/
def Obligations.SignedViewIsExact : Prop :=
  ∀ (a b : Byte) (s : State),
    (∃ s' y, exec (.add a b) s = .next s' ∧ s'.outputs = s.outputs ++ [.y y] ∧
      sval8S y s'.sr = sval8 a + sval8 b) ∧
    (∃ s' y, exec (.sub a b) s = .next s' ∧ s'.outputs = s.outputs ++ [.y y] ∧
      sval8S y s'.sr = sval8 a - sval8 b) ∧
    (∀ i : Instr, i = .or a b ∨ i = .and a b ∨ i = .xor a b →
      ∃ s' y, exec i s = .next s' ∧ s'.outputs = s.outputs ++ [.y y] ∧ sval8S y s'.sr = sval8 y)

/-- R94: no function of a SUB's Y and SR tells whether A <u B (the spec's own derivation). -/
def Obligations.SubShowsNoUnsignedBorrow : Prop :=
  ¬∃ f : Byte → Byte → Bool, ∀ (a b : Byte) (s s' : State) (y : Byte),
    exec (.sub a b) s = .next s' → s'.outputs = s.outputs ++ [.y y] → f y s'.sr = decide (a.toNat < b.toNat)

/-- R7, R80: every intermediate fits in 9 bits, and a CALC is the same for every width IW of the intermediate from 9 up (the
spec's own derivation; log entry 7). -/
def Obligations.IntermediateWidthIsUnobservable : Prop :=
  ∀ (iw : Nat), 9 ≤ iw → ∀ (a b : Byte) (s : State),
    exec (.or a b) s = finishCalc (orWide iw a b) false s ∧
    exec (.and a b) s = finishCalc (andWide iw a b) false s ∧
    exec (.xor a b) s = finishCalc (xorWide iw a b) false s ∧
    exec (.add a b) s = finishCalc (addWide iw a b) (addOverflow a b (addWide iw a b)) s ∧
    exec (.sub a b) s = finishCalc (subWide iw a b) (subOverflow a b (subWide iw a b)) s ∧
    (addWide iw a b).toNat ≤ 510 ∧ (subWide iw a b).toNat ≤ 255 ∧ (orWide iw a b).toNat ≤ 255 ∧
    (andWide iw a b).toNat ≤ 255 ∧ (xorWide iw a b).toNat ≤ 255

/-- R69, R71, R81: a CALC raises nothing for any A and B; it writes the whole of SR, all five flags and 0 in bits 7:5,
whatever SR held; it outputs Y; and SR and Y are the same from every state, so besides its inputs it reads no state. -/
def Obligations.CalcIsATotalFunctionOfItsOperands : Prop :=
  ∀ i : Instr, i.isCalc = true →
    ∃ y sF nF zF vF cF, CalcGives i y sF nF zF vF cF ∧ reservedBits (srOf sF nF zF vF cF) = 0#3

/-- R83 to R91 together: after a CALC, SR is one of eight values, and each of the eight occurs (the model's own conclusion
from the rules; read off 95_test_vectors.md's SR columns). -/
def Obligations.EightStatusValuesAfterACalc : Prop :=
  (∀ (i : Instr) (s s' : State), i.isCalc = true → exec i s = .next s' →
    s'.sr ∈ [0x00#8, 0x01#8, 0x04#8, 0x0A#8, 0x12#8, 0x13#8, 0x18#8, 0x19#8]) ∧
  (∀ v ∈ [0x00#8, 0x01#8, 0x04#8, 0x0A#8, 0x12#8, 0x13#8, 0x18#8, 0x19#8],
    ∃ i : Instr, i.isCalc = true ∧ ∀ s : State, ∃ s', exec i s = .next s' ∧ s'.sr = v)

/-! ### The bit-field operations -/

/-- R65: set, its encoding (D7), result at every bit, exception (D4, D8), idempotence and corner cases, and the example; SR
and all else unchanged. -/
def Obligations.SetResultAndFrame : Prop :=
  (∀ idx : Byte, decode (bfWordOf 0 idx) = .ok (.set idx)) ∧
  (∀ (idx : Byte) (r : RegValue), idx.toNat < r.width →
    ∃ out : RegValue, BitFieldGives (.set idx) r (.regOut out) ∧ out.width = r.width ∧
      (∀ k < r.width, out.bitAt k = (decide (k = idx.toNat) || r.bitAt k)) ∧
      (r.bitAt idx.toNat = true → out = r)) ∧
  (∀ (idx : Byte) (r : RegValue), r.width ≤ idx.toNat →
    BitFieldRaises (.set idx) r (.bitIndexOutOfRange idx r.width)) ∧
  (∀ v : Nat, BitFieldGives (.set 0#8) (RegValue.ofNat 1 v) (.regOut (RegValue.ofNat 1 1))) ∧
  BitFieldGives (.set 0#8) (RegValue.ofNat 8 0x20) (.regOut (RegValue.ofNat 8 0x21))

/-- R66: clear, its encoding (D7), result at every bit, exception (D4, D8), corner cases and the example; SR and all else
unchanged. That clear after set is clear, and set after clear is set, is the spec's own derivation. -/
def Obligations.ClearResultAndFrame : Prop :=
  (∀ idx : Byte, decode (bfWordOf 1 idx) = .ok (.clear idx)) ∧
  (∀ (idx : Byte) (r : RegValue), idx.toNat < r.width →
    ∃ out : RegValue, BitFieldGives (.clear idx) r (.regOut out) ∧ out.width = r.width ∧
      (∀ k < r.width, out.bitAt k = (!decide (k = idx.toNat) && r.bitAt k)) ∧
      (r.bitAt idx.toNat = false → out = r)) ∧
  (∀ (idx : Byte) (r : RegValue), r.width ≤ idx.toNat →
    BitFieldRaises (.clear idx) r (.bitIndexOutOfRange idx r.width)) ∧
  (∀ (idx : Byte) (r out : RegValue) (o : Output), idx.toNat < r.width →
    (BitFieldGives (.set idx) r (.regOut out) → BitFieldGives (.clear idx) r o → BitFieldGives (.clear idx) out o) ∧
    (BitFieldGives (.clear idx) r (.regOut out) → BitFieldGives (.set idx) r o → BitFieldGives (.set idx) out o)) ∧
  BitFieldGives (.clear 7#8) (RegValue.ofNat 8 0xFF) (.regOut (RegValue.ofNat 8 0x7F))

/-- R67 (D7, D9; D4, D8 for the exception): read delivers BIT = 1 if bit IDX of REG is set, else 0; SR and all else
unchanged; with the rule's two examples. -/
def Obligations.ReadResultAndFrame : Prop :=
  (∀ idx : Byte, decode (bfWordOf 2 idx) = .ok (.read idx)) ∧
  (∀ (idx : Byte) (r : RegValue), idx.toNat < r.width →
    BitFieldGives (.read idx) r (.bit (if r.bitAt idx.toNat = true then 1#1 else 0#1))) ∧
  (∀ (idx : Byte) (r : RegValue), r.width ≤ idx.toNat →
    BitFieldRaises (.read idx) r (.bitIndexOutOfRange idx r.width)) ∧
  BitFieldGives (.read 8#8) (RegValue.ofNat 16 0x01FE) (.bit 1#1) ∧
  BitFieldGives (.read 8#8) (RegValue.ofNat 16 0x00FF) (.bit 0#1)

/-- R67, R68: read of bit 8 of the 16-bit sum A + B is the carry-out: it is the C that ADD A, B leaves in SR. -/
def Obligations.ReadOfBitEightIsTheCarry : Prop :=
  ∀ (a b : Byte) (s : State),
    ∃ s' c, exec (.add a b) s = .next s' ∧ flagC s'.sr = c ∧ (c = true ↔ 256 ≤ a.toNat + b.toNat) ∧
      BitFieldGives (.read 8#8) (RegValue.ofNat 16 (a.toNat + b.toNat)) (.bit (BitVec.ofBool c))

/-- R64: a bit-field operation depends on REG and IDX alone and writes no state: for each REG it either delivers one and the
same output from every state, REG_OUT for set and clear and BIT for read, or raises one and the same fault. -/
def Obligations.BitFieldDependsOnRegAndIndexAlone : Prop :=
  ∀ (i : Instr) (r : RegValue), i.isCalc = false →
    (i.fits r.width = true ∧
      ∃ o, BitFieldGives i r o ∧ ((∃ idx, i = .read idx) ↔ ∃ b, o = .bit b) ∧
        ((∀ idx, i ≠ .read idx) ↔ ∃ q, o = .regOut q)) ∨
    (i.fits r.width = false ∧ ∃ f, BitFieldRaises i r f)

/-- R45, R64, R22: the host sets bit k of SR by reading SR, applying set to the value read, and writing REG_OUT back: three
transactions after which SR is the old SR with bit k set. -/
def Obligations.HostSetsAStatusBitInThreeTransactions : Prop :=
  ∀ (s : State) (k : Byte) (w : BitVec 10) (v : Byte) (rest : List Transaction), s.faultMark = none → k.toNat < 8 →
    decode (.bf10 w) = .ok (.set k) → (∀ j < 8, v.getLsbD j = (decide (j = k.toNat) || s.sr.getLsbD j)) →
    s.pending = .readSR :: .bitField w (RegValue.ofByte s.sr) :: .writeSR v :: rest →
    core.run 3 s = .next { s with
      sr := v, pending := rest, regPort := RegValue.ofByte s.sr,
      outputs := s.outputs ++ [.srValue s.sr, .regOut (RegValue.ofByte v), .nothing] }

/-! ### Encoding -/

/-- R48, R49, R52, D3: decoding an encoded instruction gives it back, with every operand at every value, under EVERY
OPCODE_MAP whose codes are distinct. -/
def Obligations.DecodeOfEncodeIsTheInstruction : Prop :=
  ∀ m : OpcodeMap, m.wellFormed = true → ∀ i : Instr, decodeWith m (encodeWith m i) = .ok i

/-- R49, R52, R54: a word has one meaning: the instruction it decodes to is encoded as that very word, under every
OPCODE_MAP. -/
def Obligations.DecodedWordIsTheEncoding : Prop :=
  ∀ (m : OpcodeMap) (w : CommandWord) (i : Instr), decodeWith m w = .ok i → encodeWith m i = w

/-- R51, R53 (decisions D3, D4, D7): a CALC word is rejected, under the name of its OP, exactly when OP is 0x00 or above
0x05; a BF word, under the name of its BFOP, exactly when BFOP is 3. Every undefined value is among these (R54). -/
def Obligations.ExactlyTheUndefinedCodesAreRejected : Prop :=
  (∀ w : BitVec 24,
    ((∃ i, decode (.calc24 w) = .ok i) ↔ 1 ≤ w.toNat / 65536 ∧ w.toNat / 65536 ≤ 5) ∧
    (w.toNat / 65536 = 0 ∨ 5 < w.toNat / 65536 →
      decode (.calc24 w) = .error (.undefinedOperation (BitVec.ofNat 8 (w.toNat / 65536))))) ∧
  (∀ w : BitVec 10,
    ((∃ i, decode (.bf10 w) = .ok i) ↔ w.toNat / 256 ≤ 2) ∧
    (w.toNat / 256 = 3 → decode (.bf10 w) = .error (.undefinedBitOp 3#2)))

/-- 30_encoding.md section 6's example encodings (decisions D3, D7), and the reserved words of 95_test_vectors.md. -/
def Obligations.ExampleWordsDecode : Prop :=
  decode (.calc24 0x046432#24) = .ok (.add 100#8 50#8) ∧
  decode (.calc24 0x059C32#24) = .ok (.sub 156#8 50#8) ∧
  decode (.calc24 0x022420#24) = .ok (.and 0x24#8 0x20#8) ∧
  decode (.calc24 0x012001#24) = .ok (.or 0x20#8 0x01#8) ∧
  decode (.calc24 0x03FF0F#24) = .ok (.xor 0xFF#8 0x0F#8) ∧
  decode (.bf10 0x003#10) = .ok (.set 3#8) ∧
  decode (.bf10 0x107#10) = .ok (.clear 7#8) ∧
  decode (.bf10 0x208#10) = .ok (.read 8#8) ∧
  decode (.calc24 0x000102#24) = .error (.undefinedOperation 0x00#8) ∧
  decode (.calc24 0x060000#24) = .error (.undefinedOperation 0x06#8) ∧
  decode (.bf10 0x3FF#10) = .error (.undefinedBitOp 3#2)

/-! ### Whole-machine rules -/

/-- R24: S == N xor V after every CALC; and the law, once it holds, fails only after a host write of SR: every other step
keeps it. -/
def Obligations.SignLawFailsOnlyAfterAHostWrite : Prop :=
  (∀ (i : Instr) (s : State), i.isCalc = true → ∃ s', exec i s = .next s' ∧ SignLaw s'.sr) ∧
  (∀ s s' : State, step s = .next s' → (∀ v, s.pending.head? ≠ some (.writeSR v)) → SignLaw s.sr → SignLaw s'.sr)

/-- R20, R24, R75: the invariant that SR is lawful (bits 7:5 zero, S == N xor V, Z excluding every other flag) and no issued
host write breaks it is kept by every step. -/
def Obligations.EveryStepKeepsTheFlagLaw : Prop :=
  ∀ s s' : State, s.flagInv = true → step s = .next s' → s'.flagInv = true

/-- R31: the state after reset is lawful. -/
def Obligations.ResetMeetsTheFlagLaw : Prop :=
  State.reset.flagInv = true

/-- R18's table, R22, R64: only a CALC with a legal OP, a host write of SR and a reset change SR. -/
def Obligations.OnlyCalcWriteAndResetChangeSR : Prop :=
  ∀ s s' : State, step s = .next s' → s'.sr ≠ s.sr →
    ∃ t, s.pending.head? = some t ∧
      ((∃ w i, t = .calculate w ∧ decode (.calc24 w) = .ok i ∧ i.isCalc = true) ∨ (∃ v, t = .writeSR v) ∨ t = .reset)

/-- R114, R116 (the spec's own derivation): a host read right after a CALC returns that CALC's SR, with 0 in bits 7:5. -/
def Obligations.HostReadAfterACalcSeesItsFlags : Prop :=
  ∀ (s : State) (w : BitVec 24) (i : Instr) (rest : List Transaction), s.faultMark = none →
    s.pending = .calculate w :: .readSR :: rest → decode (.calc24 w) = .ok i →
    ∃ u y, exec i s = .next u ∧ reservedBits u.sr = 0#3 ∧
      core.run 2 s = .next { s with
        sr := u.sr, pending := rest, outputs := s.outputs ++ [.y y, .srValue u.sr] }

/-- R22, R71 (D5): a host write of SR affects no later CALC: SR and Y after the CALC are as if the write had not been made. -/
def Obligations.HostWriteAffectsNoLaterCalc : Prop :=
  ∀ (s : State) (v : Byte) (w : BitVec 24) (i : Instr) (rest : List Transaction), s.faultMark = none →
    decode (.calc24 w) = .ok i →
    ∃ sr y,
      core.run 2 { s with pending := .writeSR v :: .calculate w :: rest } =
        .next { s with sr := sr, pending := rest, outputs := s.outputs ++ [.nothing, .y y] } ∧
      core.run 1 { s with pending := .calculate w :: rest } =
        .next { s with sr := sr, pending := rest, outputs := s.outputs ++ [.y y] }

/-- R40, R112: transactions take effect in issue order, so a later issue changes nothing of an earlier step (the pending list
is the model's own: log entry 1). -/
def Obligations.LaterIssueDoesNotAffectAStep : Prop :=
  ∀ (s s' : State) (t : Transaction), step s = .next s' → step (s.issue t) = .next (s'.issue t)

/-- R15, R36: what stands on the port REG between transactions is never observed (log entry 3): from two states that differ
in it alone the next states differ at most in it. -/
def Obligations.IdlePortIsNeverObserved : Prop :=
  ∀ (s s' : State) (r : RegValue), step s = .next s' →
    ∃ q, step { s with regPort := r } = .next { s' with regPort := q }

/-- R95, R111, R117: from an unfaulted state, performing everything issued ends well (all completed, no fault) exactly when
the host has kept its duties in all of it. -/
def Obligations.RunEndsWellExactlyWhenDutiesAreKept : Prop :=
  ∀ s : State, s.faultMark = none →
    ((∃ s', core.run s.pending.length s = .next s' ∧ s'.endedWell = true) ↔ s.dutiesKept = true)

/-- R117: a run that ends well hands the host one output for every transaction, in order, after those it had. The record of
outputs, with the entry nothing for a host write and a reset, is the model's choice of log entry 2 (DESIGN CHOICE). -/
def Obligations.RunDeliversOneOutputPerTransaction : Prop :=
  ∀ s : State, s.faultMark = none → s.dutiesKept = true →
    ∃ s' os, core.run s.pending.length s = .next s' ∧ s'.endedWell = true ∧
      s'.outputs = s.outputs ++ os ∧ os.length = s.pending.length

/-! ### Under every OPCODE_MAP (R9, decision D3; log entry 6) -/

/-- R9, R14, R51, R53 (decisions D3, D4): `step` and `core` are those of the default OPCODE_MAP; under every map the oldest
issued command runs as the instruction the map decodes it to, a CALC whose OP is none of the map's five codes raises
UndefinedOperation(OP), and BFOP = 3 raises UndefinedBitOp(3), with nothing else changed. -/
def Obligations.StepRunsTheDecodedCommandUnderEveryMap : Prop :=
  (∀ s : State, step s = stepWith opcodeMap s) ∧ core = coreWith opcodeMap ∧
  ∀ (m : OpcodeMap) (s : State) (rest : List Transaction), s.faultMark = none →
    (∀ w i, s.pending = .calculate w :: rest → decodeWith m (.calc24 w) = .ok i →
      stepWith m s = exec i { s with pending := rest }) ∧
    (∀ w r i, s.pending = .bitField w r :: rest → decodeWith m (.bf10 w) = .ok i →
      stepWith m s = exec i { s with pending := rest, regPort := r }) ∧
    (∀ w, s.pending = .calculate w :: rest → opField w ∉ [m.or, m.and, m.xor, m.add, m.sub] →
      stepWith m s = .next { s with pending := rest, faultMark := some (.undefinedOperation (opField w)) }) ∧
    (∀ w r, s.pending = .bitField w r :: rest → bfopField w = 3#2 →
      stepWith m s = .next { s with pending := rest, regPort := r, faultMark := some (.undefinedBitOp 3#2) })

/-- R9 (decision D3): what is stated through mnemonics does not depend on OPCODE_MAP: a list of instructions, each with its REG,
issued in the encoding of one admissible map and run under it, ends as the same list does under any other admissible map.
What is stated through numeric words does depend on it. -/
def Obligations.MnemonicsRunAlikeUnderEveryMap : Prop :=
  (∀ m n : OpcodeMap, m.wellFormed = true → n.wellFormed = true → ∀ (prog : List (Instr × RegValue)) (s : State),
    (coreWith m).run prog.length { s with pending := prog.map fun p => issueAs m p.1 p.2 } =
      (coreWith n).run prog.length { s with pending := prog.map fun p => issueAs n p.1 p.2 }) ∧
  ∃ (m n : OpcodeMap) (w : BitVec 24), m.wellFormed = true ∧ n.wellFormed = true ∧
    stepWith m (State.launch [.calculate w]) ≠ stepWith n (State.launch [.calculate w])

/-- R9, R95, R111, R117 (decisions D3, D4, D11): under every OPCODE_MAP, performing everything issued ends well exactly when
the host has kept its duties in all of it, the legal codes being that map's (log entries 1 and 4). -/
def Obligations.RunEndsWellExactlyWhenDutiesAreKeptUnderEveryMap : Prop :=
  ∀ (m : OpcodeMap) (s : State), s.faultMark = none →
    ((∃ s', (coreWith m).run s.pending.length s = .next s' ∧ s'.endedWell = true) ↔ s.dutiesKeptWith m = true)

/-- R9, R20, R24, R75 (decision D3): under every OPCODE_MAP, every step keeps the invariant that SR is lawful and no issued
host write breaks it. -/
def Obligations.EveryStepKeepsTheFlagLawUnderEveryMap : Prop :=
  ∀ (m : OpcodeMap) (s s' : State), s.flagInv = true → stepWith m s = .next s' → s'.flagInv = true

/-- R9, R55 to R58, R60 (decisions D3, D19): under every admissible OPCODE_MAP the names and symbols stand for the map's five
codes and every other code is "Unknown", parse_operation takes each name to its code and any other text to NOP's, and a CALC
line with decimal operands assembles to its instruction's encoding. -/
def Obligations.NamesAndCalcLinesUnderEveryMap : Prop :=
  ∀ m : OpcodeMap, m.wellFormed = true →
    (∀ name symbol code, (name, symbol, code) ∈
        [("OR", "|", m.or), ("AND", "&", m.and), ("XOR", "^", m.xor), ("ADD", "+", m.add), ("SUB", "-", m.sub)] →
      operationNameWith m code = name ∧ operatorSymbolWith m code = symbol ∧ parseOperationWith m name = code) ∧
    (∀ op, op ∉ [m.or, m.and, m.xor, m.add, m.sub] →
      operationNameWith m op = "Unknown" ∧ operatorSymbolWith m op = "Unknown") ∧
    (∀ name, name ∉ ["OR", "AND", "XOR", "ADD", "SUB"] → parseOperationWith m name = m.nop) ∧
    (∀ (a b : Byte) (r : RegValue) (name : String) (i : Instr),
      (name, i) ∈ [("OR", .or a b), ("AND", .and a b), ("XOR", .xor a b), ("ADD", .add a b), ("SUB", .sub a b)] →
      assembleWith m (name.toList ++ ' ' :: decimal a.toNat ++ ',' :: ' ' :: decimal b.toNat) =
        .ok (issueAs m i r))

/-! ### Instances -/

/-- R30: two instances share no state: a step of one leaves every other as it was, and depends on none of them. -/
def Obligations.InstancesShareNoState : Prop :=
  ∀ (k : Nat) (is is' : Instances), stepInstance k is = .next is' →
    is'.length = is.length ∧ (∀ j, j ≠ k → is'[j]? = is[j]?) ∧
    ∀ js : Instances, js[k]? = is[k]? → ∃ js', stepInstance k js = .next js' ∧ js'[k]? = is'[k]?

/-- R41: the order of steps of different instances cannot be observed: either order gives the same states. -/
def Obligations.StepsOfDifferentInstancesCommute : Prop :=
  ∀ (j k : Nat) (is is1 is2 : Instances), j ≠ k → stepInstance j is = .next is1 → stepInstance k is = .next is2 →
    ∃ u, stepInstance k is1 = .next u ∧ stepInstance j is2 = .next u

/-! ### Notation -/

/-- R11, R12, R63: sval8 takes 256 off a value whose bit 7 is set, sval8S one whose status byte has S set, and the flag
string lists SR[4] to SR[0]; with the source's three cases of the signed view. -/
def Obligations.SignedViewsAndFlagString : Prop :=
  (∀ v : Byte, sval8 v = if v.getLsbD 7 = true then (v.toNat : Int) - 256 else v.toNat) ∧
  (∀ v : Byte, sval8 v = v.toInt) ∧
  (∀ v sr : Byte, sval8S v sr = if sr.getLsbD 4 = true then (v.toNat : Int) - 256 else v.toNat) ∧
  sval8 255#8 = -1 ∧ sval8 128#8 = -128 ∧ sval8 127#8 = 127 ∧
  (∀ sr : Byte, flagString sr = [4, 3, 2, 1, 0].map fun k => if sr.getLsbD k = true then '1' else '0') ∧
  flagString 0x0A#8 = ['0', '1', '0', '1', '0']

/-- R58: parse_operation is a case-sensitive exact match of the five names; any other text maps to NOP. -/
def Obligations.ParseOperationMatchesFiveNames : Prop :=
  parseOperation "OR" = opcodeMap.or ∧ parseOperation "AND" = opcodeMap.and ∧ parseOperation "XOR" = opcodeMap.xor ∧
  parseOperation "ADD" = opcodeMap.add ∧ parseOperation "SUB" = opcodeMap.sub ∧
  (∀ name, name ∉ ["OR", "AND", "XOR", "ADD", "SUB"] → parseOperation name = opcodeMap.nop) ∧
  parseOperation "add" = opcodeMap.nop ∧ parseOperation "" = opcodeMap.nop

/-- R55, R57: each operation has its name and symbol, and every other code, NOP's with it, gives "Unknown" for both; the
codes stand under their mnemonics in the default OPCODE_MAP (D3). -/
def Obligations.NamesAndSymbolsAreTotal : Prop :=
  operationName opcodeMap.or = "OR" ∧ operationName opcodeMap.and = "AND" ∧ operationName opcodeMap.xor = "XOR" ∧
  operationName opcodeMap.add = "ADD" ∧ operationName opcodeMap.sub = "SUB" ∧
  operatorSymbol opcodeMap.or = "|" ∧ operatorSymbol opcodeMap.and = "&" ∧ operatorSymbol opcodeMap.xor = "^" ∧
  operatorSymbol opcodeMap.add = "+" ∧ operatorSymbol opcodeMap.sub = "-" ∧
  (∀ op, opcodeMap.legal op = false → operationName op = "Unknown" ∧ operatorSymbol op = "Unknown") ∧
  (∀ op, opcodeMap.legal op = true → parseOperation (operationName op) = op)

/-- R60 (decision D19): a CALC line with decimal operands assembles to its command word, and a negative operand denotes the
byte v + 256. -/
def Obligations.DecimalCalcLinesAssemble : Prop :=
  ∀ (op a b : Byte), opcodeMap.legal op = true →
    assemble ((operationName op).toList ++ ' ' :: decimal a.toNat ++ ',' :: ' ' :: decimal b.toNat) =
      .ok (.calculate (calcWord op a b)) ∧
    (128 ≤ a.toNat →
      assemble ((operationName op).toList ++ ' ' :: '-' :: decimal (256 - a.toNat) ++ ',' :: ' ' :: decimal b.toNat) =
        .ok (.calculate (calcWord op a b)))

/-- R61 (decision D19): `set.<W> <reg>, <idx>` in decimal assembles to the BF word of set with that REG, for every W from 1
to 256, REG below 2^W and IDX below W. -/
def Obligations.DecimalSetLinesAssemble : Prop :=
  ∀ (w reg idx : Nat), 1 ≤ w → w ≤ 256 → reg < 2 ^ w → idx < w →
    assemble ("set.".toList ++ decimal w ++ ' ' :: decimal reg ++ ',' :: ' ' :: decimal idx) =
      .ok (.bitField (bfWord 0#2 (BitVec.ofNat 8 idx)) (RegValue.ofNat w reg)) ∧
    (RegValue.ofNat w reg).width = w ∧ (RegValue.ofNat w reg).value.toNat = reg

/-- R59 (decision D19): a line whose first word is none of the five names, and names no bit-field function, emits
nothing. -/
def Obligations.UnknownMnemonicsAreRejected : Prop :=
  ∀ (word operands : List Char), ' ' ∉ word →
    String.ofList word ∉ ["OR", "AND", "XOR", "ADD", "SUB"] →
    (splitAt '.' word).1 ∉ [['s', 'e', 't'], ['c', 'l', 'e', 'a', 'r'], ['r', 'e', 'a', 'd']] →
    assemble (word ++ ' ' :: operands) = .error .unknownOperation
end

