-- ==== Sys2Proof/Laws/Assembler.lean ====
section
/-! SUPPORT. What the assembler's readers give: a decimal spelling reads back as its number, and a line is split at its first
space or dot. -/

namespace Sys2Proof.Machine

/-- The text after a numeral: it does not go on with a digit. -/
def EndsNumeral (rest : List Char) : Prop := ∀ c cs, rest = c :: cs → decDigit c = none

theorem decDigit_digitChar {d : Nat} (h : d < 10) : decDigit (digitChar d) = some d := by
  revert h; revert d; decide

theorem readDigits_append (digit : Char → Option Nat) (base acc : Nat) (ds rest : List Char)
    (h : ∀ c ∈ ds, (digit c).isSome) :
    readDigits digit base acc (ds ++ rest) = readDigits digit base (readDigits digit base acc ds).1 rest := by
  induction ds generalizing acc with
  | nil => rfl
  | cons c cs ih =>
    obtain ⟨d, hd⟩ := Option.isSome_iff_exists.mp (h c (by simp))
    simp only [List.cons_append, readDigits, hd]
    exact ih _ fun c' hc' => h c' (by simp [hc'])

/-- The digits of a decimal spelling are digits, there is one, and they are worth the number. -/
theorem decimalDigits_spec (fuel n : Nat) (h : n < fuel) :
    (∀ c ∈ decimalDigits fuel n, (decDigit c).isSome) ∧ decimalDigits fuel n ≠ [] ∧
      (readDigits decDigit 10 0 (decimalDigits fuel n)).1 = n := by
  induction fuel generalizing n with
  | zero => omega
  | succ fuel ih =>
    unfold decimalDigits
    split
    · rename_i hn
      simp [decDigit_digitChar hn, readDigits]
    · rename_i hn
      have hm : n % 10 < 10 := Nat.mod_lt _ (by omega)
      obtain ⟨hds, -, hval⟩ := ih (n / 10) (by omega)
      refine ⟨?_, by simp, ?_⟩
      · intro c hc
        rcases List.mem_append.mp hc with hc | hc
        · exact hds c hc
        · simp only [List.mem_singleton] at hc
          simp [hc, decDigit_digitChar hm]
      · rw [readDigits_append _ _ _ _ _ hds, hval]
        simp only [readDigits, decDigit_digitChar hm]
        omega

/-- A decimal spelling, followed by no digit, reads back as its number and leaves the text after it. -/
theorem readDecimal_decimal (n : Nat) (rest : List Char) (hrest : EndsNumeral rest) :
    readDecimal (decimal n ++ rest) = some (n, rest) := by
  obtain ⟨hds, hne, hval⟩ := decimalDigits_spec (n + 1) n (by omega)
  have hstop : ∀ acc, readDigits decDigit 10 acc rest = (acc, rest) := by
    intro acc
    cases rest with
    | nil => rfl
    | cons c cs => simp [readDigits, hrest c cs rfl]
  unfold decimal
  cases hd : decimalDigits (n + 1) n with
  | nil => exact absurd hd hne
  | cons c cs =>
    rw [hd] at hds hval
    obtain ⟨d, hdig⟩ := Option.isSome_iff_exists.mp (hds c (by simp))
    have htail : ∀ c' ∈ cs, (decDigit c').isSome := fun c' hc' => hds c' (by simp [hc'])
    simp only [readDigits, hdig] at hval
    simp only [readDecimal, List.cons_append, readNumeral, hdig, Option.some.injEq]
    rw [readDigits_append _ _ _ _ _ htail, hstop]
    simp only [Nat.zero_mul, Nat.zero_add] at hval
    rw [hval]

/-- A line is split at its first `stop`. -/
theorem splitAt_append (stop : Char) (word rest : List Char) (h : stop ∉ word) :
    splitAt stop (word ++ stop :: rest) = (word, some rest) := by
  induction word with
  | nil => simp [splitAt]
  | cons c cs ih =>
    simp only [List.mem_cons, not_or] at h
    simp [splitAt, Ne.symm h.1, ih h.2]

end Sys2Proof.Machine
end

