-- ==== Sys2Proof/Laws/Decode.lean ====
section
/-! SUPPORT. The fields of a packed word are what was packed, a word is the packing of its fields, and a selecting field is a
quotient of the word's number (R49, R52). -/

namespace Sys2Proof

theorem opField_calcWord (op a b : Byte) : opField (calcWord op a b) = op := by
  apply BitVec.eq_of_getLsbD_eq
  intro k hk
  simp only [opField, BitVec.getLsbD_extractLsb', hk, decide_true, Bool.true_and]
  refine (BitVec.getLsbD_append ..).trans ?_
  rw [if_neg (by omega)]
  refine (BitVec.getLsbD_append ..).trans ?_
  rw [if_neg (by omega)]
  congr 1
  omega

theorem aField_calcWord (op a b : Byte) : aField (calcWord op a b) = a := by
  apply BitVec.eq_of_getLsbD_eq
  intro k hk
  simp only [aField, BitVec.getLsbD_extractLsb', hk, decide_true, Bool.true_and]
  refine (BitVec.getLsbD_append ..).trans ?_
  rw [if_neg (by omega)]
  refine (BitVec.getLsbD_append ..).trans ?_
  rw [if_pos (by omega)]
  congr 1
  omega

theorem bField_calcWord (op a b : Byte) : bField (calcWord op a b) = b := by
  apply BitVec.eq_of_getLsbD_eq
  intro k hk
  simp only [bField, BitVec.getLsbD_extractLsb', hk, decide_true, Bool.true_and]
  refine (BitVec.getLsbD_append ..).trans ?_
  rw [if_pos (by omega)]
  congr 1
  omega

/-- A CALC word is `{OP, A, B}` of its own fields (R49). -/
theorem calcWord_fields (w : BitVec 24) : calcWord (opField w) (aField w) (bField w) = w := by
  apply BitVec.eq_of_getLsbD_eq
  intro k hk
  refine (BitVec.getLsbD_append ..).trans ?_
  split
  · rename_i h
    simp [bField, h]
  · refine (BitVec.getLsbD_append ..).trans ?_
    split
    · rename_i h
      simp only [aField, BitVec.getLsbD_extractLsb', h, decide_true, Bool.true_and]
      congr 1
      omega
    · rename_i h
      simp only [opField, BitVec.getLsbD_extractLsb', show k - 8 - 8 < 8 by omega, decide_true, Bool.true_and]
      congr 1
      omega

theorem bfopField_bfWord (bfop : BitVec 2) (idx : Byte) : bfopField (bfWord bfop idx) = bfop := by
  apply BitVec.eq_of_getLsbD_eq
  intro k hk
  simp only [bfopField, BitVec.getLsbD_extractLsb', hk, decide_true, Bool.true_and]
  refine (BitVec.getLsbD_append ..).trans ?_
  rw [if_neg (by omega)]
  congr 1
  omega

theorem idxField_bfWord (bfop : BitVec 2) (idx : Byte) : idxField (bfWord bfop idx) = idx := by
  apply BitVec.eq_of_getLsbD_eq
  intro k hk
  simp only [idxField, BitVec.getLsbD_extractLsb', hk, decide_true, Bool.true_and]
  refine (BitVec.getLsbD_append ..).trans ?_
  rw [if_pos (by omega)]
  congr 1
  omega

/-- A BF word is `{BFOP, IDX}` of its own fields (R52). -/
theorem bfWord_fields (w : BitVec 10) : bfWord (bfopField w) (idxField w) = w := by
  apply BitVec.eq_of_getLsbD_eq
  intro k hk
  refine (BitVec.getLsbD_append ..).trans ?_
  split
  · rename_i h
    simp [idxField, h]
  · rename_i h
    simp only [bfopField, BitVec.getLsbD_extractLsb', show k - 8 < 2 by omega, decide_true, Bool.true_and]
    congr 1
    omega

theorem opField_toNat (w : BitVec 24) : (opField w).toNat = w.toNat / 65536 := by
  have := w.isLt
  simp [opField, Nat.shiftRight_eq_div_pow]
  omega

theorem bfopField_toNat (w : BitVec 10) : (bfopField w).toNat = w.toNat / 256 := by
  have := w.isLt
  simp [bfopField, Nat.shiftRight_eq_div_pow]
  omega

end Sys2Proof
end

