-- ==== Sys2Proof/Laws/Flags.lean ====
section
/-! SUPPORT. What the flag derivation, the bit-field primitives and the widened intermediates give, once each. -/

namespace Sys2Proof.Machine

/-! ### The bit-field primitives -/

/-- set changes bit k and no other (R65). -/
theorem bitRead_bitSet {w : Nat} (r : BitVec w) (k j : Nat) (hj : j < w) :
    bitRead (bitSet r k) j = if j = k then true else bitRead r j := by
  simp only [bitRead, bitSet, BitVec.getLsbD_or, BitVec.getLsbD_shiftLeft, BitVec.getLsbD_one, hj, decide_true,
    Bool.true_and]
  rcases Nat.lt_trichotomy j k with h | h | h
  · simp [h, Nat.ne_of_lt h]
  · subst h
    have : 0 < w := by omega
    simp [this]
  · have h1 : ¬ j < k := by omega
    have h2 : j - k ≠ 0 := by omega
    have h3 : j ≠ k := by omega
    simp [h1, h2, h3]

/-- clear changes bit k and no other (R66). -/
theorem bitRead_bitClear {w : Nat} (r : BitVec w) (k j : Nat) (hj : j < w) :
    bitRead (bitClear r k) j = if j = k then false else bitRead r j := by
  simp only [bitRead, bitClear, BitVec.getLsbD_and, BitVec.getLsbD_not, BitVec.getLsbD_shiftLeft, BitVec.getLsbD_one,
    hj, decide_true, Bool.true_and]
  rcases Nat.lt_trichotomy j k with h | h | h
  · simp [h, Nat.ne_of_lt h]
  · subst h
    have : 0 < w := by omega
    simp [this]
  · have h1 : ¬ j < k := by omega
    have h2 : j - k ≠ 0 := by omega
    have h3 : j ≠ k := by omega
    simp [h1, h2, h3]

/-! ### The status byte -/

/-- The flags of a byte made of five flags are those five, and its reserved bits are 0. -/
theorem srOf_fields (sF nF zF vF cF : Bool) :
    flagS (srOf sF nF zF vF cF) = sF ∧ flagN (srOf sF nF zF vF cF) = nF ∧ flagZ (srOf sF nF zF vF cF) = zF ∧
      flagV (srOf sF nF zF vF cF) = vF ∧ flagC (srOf sF nF zF vF cF) = cF ∧
      reservedBits (srOf sF nF zF vF cF) = 0#3 := by
  cases sF <;> cases nF <;> cases zF <;> cases vF <;> cases cF <;> decide

/-- A status byte with reserved bits 0 is the byte of its five flags. -/
theorem eq_srOf_of_reserved (sr : Byte) (h : reservedBits sr = 0#3) :
    sr = srOf (flagS sr) (flagN sr) (flagZ sr) (flagV sr) (flagC sr) := by
  revert h
  revert sr
  decide

/-- SR after a CALC, flag by flag: S = N xor V, N = t[7], Z = (t == 0), V, C = t[8] (R73 to R77). -/
theorem derivedSR_eq {iw : Nat} (t : BitVec iw) (v : Bool) :
    derivedSR t v = srOf (bitRead t 7 ^^ v) (bitRead t 7) (t == 0#iw) v (bitRead t 8) := by
  unfold derivedSR
  generalize bitRead t 7 = n
  generalize bitRead t 8 = c
  generalize (t == 0#iw) = z
  cases n <;> cases c <;> cases z <;> cases v <;> decide

/-! ### The widened intermediates as numbers -/

theorem zext_toNat {iw : Nat} (h : 9 ≤ iw) (x : Byte) : (zext iw x).toNat = x.toNat := by
  have hx := x.isLt
  have : 2 ^ 9 ≤ 2 ^ iw := Nat.pow_le_pow_right (by omega) h
  simp only [zext, BitVec.toNat_setWidth]
  exact Nat.mod_eq_of_lt (by omega)

theorem orWide_toNat {iw : Nat} (h : 9 ≤ iw) (a b : Byte) : (orWide iw a b).toNat = (a ||| b).toNat := by
  simp [orWide, BitVec.toNat_or, zext_toNat h]

theorem andWide_toNat {iw : Nat} (h : 9 ≤ iw) (a b : Byte) : (andWide iw a b).toNat = (a &&& b).toNat := by
  simp [andWide, BitVec.toNat_and, zext_toNat h]

theorem xorWide_toNat {iw : Nat} (h : 9 ≤ iw) (a b : Byte) : (xorWide iw a b).toNat = (a ^^^ b).toNat := by
  simp [xorWide, BitVec.toNat_xor, zext_toNat h]

/-- ADD's intermediate is the sum, in 0..510 (R80, R87). -/
theorem addWide_toNat {iw : Nat} (h : 9 ≤ iw) (a b : Byte) : (addWide iw a b).toNat = a.toNat + b.toNat := by
  have ha := a.isLt
  have hb := b.isLt
  have : 2 ^ 9 ≤ 2 ^ iw := Nat.pow_le_pow_right (by omega) h
  simp only [addWide, BitVec.toNat_add, zext_toNat h]
  exact Nat.mod_eq_of_lt (by omega)

/-- SUB's adjusted difference lies in 0..255 (R91). -/
theorem subExact_range (a b : Byte) : 0 ≤ subExact a b ∧ subExact a b ≤ 255 := by
  have ha := a.isLt
  have hb := b.isLt
  unfold subExact
  split <;> omega

/-- SUB's intermediate is the adjusted difference (R89, R91). -/
theorem subWide_toNat {iw : Nat} (h : 9 ≤ iw) (a b : Byte) : ((subWide iw a b).toNat : Int) = subExact a b := by
  have hr := subExact_range a b
  have h9 : 2 ^ 9 ≤ 2 ^ iw := Nat.pow_le_pow_right (by omega) h
  have h9' : (2 : Int) ^ 9 ≤ 2 ^ iw := by exact_mod_cast h9
  simp only [subWide, BitVec.toNat_ofInt]
  have hm : subExact a b % ((2 ^ iw : Nat) : Int) = subExact a b := by
    push_cast
    exact Int.emod_eq_of_lt hr.1 (by omega)
  rw [hm]
  omega

/-- A bit of an intermediate is that bit of its number. -/
theorem bitRead_toNat {iw : Nat} (t : BitVec iw) (k : Nat) : bitRead t k = t.toNat.testBit k := rfl

/-- Z compares the whole intermediate with 0 (R75). -/
theorem zero_test_toNat {iw : Nat} (t : BitVec iw) : (t == 0#iw) = (t.toNat == 0) := by
  rw [Bool.eq_iff_iff]
  simp [BitVec.toNat_eq]

/-- Y is the intermediate modulo 256 (R78). -/
theorem resultByte_toNat {iw : Nat} (t : BitVec iw) : (resultByte t).toNat = t.toNat % 256 := by
  simp [resultByte]

end Sys2Proof.Machine
end

