-- ==== Sys2Proof/Laws/State.lean ====
section
/-! SUPPORT. One lemma per field per update of the state, so that no proof unfolds a record update. -/

namespace Sys2Proof.Machine

@[simp] theorem State.deliver_sr (o : Output) (s : State) : (s.deliver o).sr = s.sr := rfl
@[simp] theorem State.deliver_faultMark (o : Output) (s : State) : (s.deliver o).faultMark = s.faultMark := rfl
@[simp] theorem State.deliver_regPort (o : Output) (s : State) : (s.deliver o).regPort = s.regPort := rfl
@[simp] theorem State.deliver_pending (o : Output) (s : State) : (s.deliver o).pending = s.pending := rfl
@[simp] theorem State.deliver_outputs (o : Output) (s : State) : (s.deliver o).outputs = s.outputs ++ [o] := rfl

@[simp] theorem State.writeSR_sr (v : Byte) (s : State) : (s.writeSR v).sr = v := rfl
@[simp] theorem State.writeSR_faultMark (v : Byte) (s : State) : (s.writeSR v).faultMark = s.faultMark := rfl
@[simp] theorem State.writeSR_regPort (v : Byte) (s : State) : (s.writeSR v).regPort = s.regPort := rfl
@[simp] theorem State.writeSR_pending (v : Byte) (s : State) : (s.writeSR v).pending = s.pending := rfl
@[simp] theorem State.writeSR_outputs (v : Byte) (s : State) : (s.writeSR v).outputs = s.outputs := rfl

@[simp] theorem State.presentReg_sr (r : RegValue) (s : State) : (s.presentReg r).sr = s.sr := rfl
@[simp] theorem State.presentReg_faultMark (r : RegValue) (s : State) : (s.presentReg r).faultMark = s.faultMark := rfl
@[simp] theorem State.presentReg_regPort (r : RegValue) (s : State) : (s.presentReg r).regPort = r := rfl
@[simp] theorem State.presentReg_pending (r : RegValue) (s : State) : (s.presentReg r).pending = s.pending := rfl
@[simp] theorem State.presentReg_outputs (r : RegValue) (s : State) : (s.presentReg r).outputs = s.outputs := rfl

@[simp] theorem State.issue_sr (t : Transaction) (s : State) : (s.issue t).sr = s.sr := rfl
@[simp] theorem State.issue_faultMark (t : Transaction) (s : State) : (s.issue t).faultMark = s.faultMark := rfl
@[simp] theorem State.issue_regPort (t : Transaction) (s : State) : (s.issue t).regPort = s.regPort := rfl
@[simp] theorem State.issue_pending (t : Transaction) (s : State) : (s.issue t).pending = s.pending ++ [t] := rfl
@[simp] theorem State.issue_outputs (t : Transaction) (s : State) : (s.issue t).outputs = s.outputs := rfl

@[simp] theorem State.withPending_sr (ts : List Transaction) (s : State) : (s.withPending ts).sr = s.sr := rfl
@[simp] theorem State.withPending_faultMark (ts : List Transaction) (s : State) : (s.withPending ts).faultMark = s.faultMark := rfl
@[simp] theorem State.withPending_regPort (ts : List Transaction) (s : State) : (s.withPending ts).regPort = s.regPort := rfl
@[simp] theorem State.withPending_pending (ts : List Transaction) (s : State) : (s.withPending ts).pending = ts := rfl
@[simp] theorem State.withPending_outputs (ts : List Transaction) (s : State) : (s.withPending ts).outputs = s.outputs := rfl

@[simp] theorem State.markFault_sr (f : Fault) (s : State) : (s.markFault f).sr = s.sr := rfl
@[simp] theorem State.markFault_faultMark (f : Fault) (s : State) : (s.markFault f).faultMark = some f := rfl
@[simp] theorem State.markFault_regPort (f : Fault) (s : State) : (s.markFault f).regPort = s.regPort := rfl
@[simp] theorem State.markFault_pending (f : Fault) (s : State) : (s.markFault f).pending = s.pending := rfl
@[simp] theorem State.markFault_outputs (f : Fault) (s : State) : (s.markFault f).outputs = s.outputs := rfl

@[simp] theorem State.resetInstance_sr (s : State) : s.resetInstance.sr = 0x00#8 := rfl
@[simp] theorem State.resetInstance_faultMark (s : State) : s.resetInstance.faultMark = none := rfl
@[simp] theorem State.resetInstance_regPort (s : State) : s.resetInstance.regPort = s.regPort := rfl
@[simp] theorem State.resetInstance_pending (s : State) : s.resetInstance.pending = s.pending := rfl
@[simp] theorem State.resetInstance_outputs (s : State) : s.resetInstance.outputs = s.outputs := rfl

@[simp] theorem State.reset_sr : State.reset.sr = 0x00#8 := rfl
@[simp] theorem State.reset_faultMark : State.reset.faultMark = none := rfl
@[simp] theorem State.reset_regPort : State.reset.regPort = RegValue.idle := rfl
@[simp] theorem State.reset_pending : State.reset.pending = [] := rfl
@[simp] theorem State.reset_outputs : State.reset.outputs = [] := rfl

/-- A state is its five fields. -/
theorem State.eq_of_fields {s t : State} (hsr : s.sr = t.sr) (hmark : s.faultMark = t.faultMark)
    (hreg : s.regPort = t.regPort) (hpending : s.pending = t.pending) (hout : s.outputs = t.outputs) : s = t := by
  cases s; cases t; simp_all

end Sys2Proof.Machine
end

