-- ==== Sys2Proof/Laws/Ops.lean ====
section
/-! SUPPORT. For each shared operation, once, everything it can do; the provers cite these instead of unfolding. -/

namespace Sys2Proof.Machine

theorem raise_eq (f : Fault) (s : State) : raise f s = .next (s.markFault f) := rfl

/-- A finished CALC always answers a next state: SR derived from `t` and `v`, Y delivered, nothing else changed. -/
theorem finishCalc_eq {iw : Nat} (t : BitVec iw) (v : Bool) (s : State) :
    finishCalc t v s =
      .next ((s.writeSR (srOf (bitRead t 7 ^^ v) (bitRead t 7) (t == 0#iw) v (bitRead t 8))).deliver
        (.y (resultByte t))) := by
  rw [finishCalc, derivedSR_eq]

/-- In range, a bit-field operation only delivers its output. -/
theorem withBitIndex_inRange {idx : Byte} {s : State} (h : idx.toNat < s.regPort.width) (out : RegValue → Output) :
    withBitIndex idx out s = .next (s.deliver (out s.regPort)) := by
  rw [withBitIndex, if_neg (by omega)]

/-- Out of range, a bit-field operation only marks the fault. -/
theorem withBitIndex_outOfRange {idx : Byte} {s : State} (h : s.regPort.width ≤ idx.toNat) (out : RegValue → Output) :
    withBitIndex idx out s = .next (s.markFault (.bitIndexOutOfRange idx s.regPort.width)) := by
  rw [withBitIndex, if_pos h, raise_eq]

/-- Everything an instruction can do: finish a CALC, deliver an output, or mark the fault of its index. -/
theorem exec_cases (i : Instr) (s : State) :
    (∃ sr y, exec i s = .next ((s.writeSR sr).deliver (.y y))) ∨
    (∃ o, exec i s = .next (s.deliver o)) ∨
    (∃ idx, s.regPort.width ≤ BitVec.toNat (w := 8) idx ∧
      exec i s = .next (s.markFault (.bitIndexOutOfRange idx s.regPort.width))) := by
  have calc_case (a b : State → Answer) (iw : Nat) (t : BitVec iw) (v : Bool) (h : a s = finishCalc t v s) :
      ∃ sr y, a s = .next ((s.writeSR sr).deliver (.y y)) := ⟨_, _, h.trans (finishCalc_eq t v s)⟩
  have bit_case (idx : Byte) (out : RegValue → Output) :
      (∃ o, withBitIndex idx out s = .next (s.deliver o)) ∨
      (∃ j, s.regPort.width ≤ BitVec.toNat (w := 8) j ∧
        withBitIndex idx out s = .next (s.markFault (.bitIndexOutOfRange j s.regPort.width))) := by
    by_cases h : s.regPort.width ≤ idx.toNat
    · exact .inr ⟨idx, h, withBitIndex_outOfRange h out⟩
    · exact .inl ⟨_, withBitIndex_inRange (by omega) out⟩
  cases i with
  | or a b => exact .inl (calc_case (execOr a b) (execOr a b) _ _ _ rfl)
  | and a b => exact .inl (calc_case (execAnd a b) (execAnd a b) _ _ _ rfl)
  | xor a b => exact .inl (calc_case (execXor a b) (execXor a b) _ _ _ rfl)
  | add a b => exact .inl (calc_case (execAdd a b) (execAdd a b) _ _ _ rfl)
  | sub a b => exact .inl (calc_case (execSub a b) (execSub a b) _ _ _ rfl)
  | set idx => exact .inr (bit_case idx fun r => .regOut (r.withBitSet idx))
  | clear idx => exact .inr (bit_case idx fun r => .regOut (r.withBitClear idx))
  | read idx => exact .inr (bit_case idx fun r => .bit (r.bitOut idx))

/-! ### One step, under every OPCODE_MAP -/

theorem decode_eq (w : CommandWord) : decode w = decodeWith opcodeMap w := rfl

theorem step_eq (s : State) : step s = stepWith opcodeMap s := rfl

/-- A command that decodes is run; one that does not raises the fault of its rejection (R51, R53). -/
theorem runCommand_of_ok {m : OpcodeMap} {w : CommandWord} {i : Instr} (h : decodeWith m w = .ok i) (s : State) :
    runCommand m w s = exec i s := by
  simp only [runCommand, h]

theorem runCommand_of_error {m : OpcodeMap} {w : CommandWord} {r : Reject} (h : decodeWith m w = .error r) (s : State) :
    runCommand m w s = .next (s.markFault (rejectFault r)) := by
  simp only [runCommand, h, raise_eq]

theorem stepWith_of_faulted (m : OpcodeMap) {s : State} {f : Fault} (h : s.faultMark = some f) :
    stepWith m s = .fault f := by
  simp only [stepWith, acceptNext, h]

theorem stepWith_of_idle (m : OpcodeMap) {s : State} (hm : s.faultMark = none) (hp : s.pending = []) :
    stepWith m s = .refused .noTransaction := by
  simp only [stepWith, acceptNext, hm, hp]

theorem stepWith_of_pending (m : OpcodeMap) {s : State} {t : Transaction} {rest : List Transaction}
    (hm : s.faultMark = none) (hp : s.pending = t :: rest) : stepWith m s = transact m t (s.withPending rest) := by
  simp only [stepWith, acceptNext, hm, hp]

/-- A step that answers a next state has performed the oldest transaction of an unfaulted instance. -/
theorem stepWith_next_inv {m : OpcodeMap} {s s' : State} (h : stepWith m s = .next s') :
    s.faultMark = none ∧ ∃ t rest, s.pending = t :: rest ∧ transact m t (s.withPending rest) = .next s' := by
  unfold stepWith acceptNext at h
  split at h
  · cases h
  · rename_i hm
    split at h
    · cases h
    · rename_i t rest hp
      exact ⟨hm, t, rest, hp, h⟩

/-- An instruction's encoding under an admissible OPCODE_MAP, issued by the host, is performed as that instruction, given that
it decodes to it (R9). -/
theorem transact_issueAs {m : OpcodeMap} {i : Instr} (hd : decodeWith m (encodeWith m i) = .ok i) (r : RegValue)
    (s : State) : ∃ q, transact m (issueAs m i r) s = exec i (s.presentReg q) ∧ (i.isCalc = false → q = r) := by
  have present_self : s.presentReg s.regPort = s := rfl
  cases i with
  | or a b => exact ⟨s.regPort, (runCommand_of_ok hd s).trans (by rw [present_self]), by simp [Instr.isCalc]⟩
  | and a b => exact ⟨s.regPort, (runCommand_of_ok hd s).trans (by rw [present_self]), by simp [Instr.isCalc]⟩
  | xor a b => exact ⟨s.regPort, (runCommand_of_ok hd s).trans (by rw [present_self]), by simp [Instr.isCalc]⟩
  | add a b => exact ⟨s.regPort, (runCommand_of_ok hd s).trans (by rw [present_self]), by simp [Instr.isCalc]⟩
  | sub a b => exact ⟨s.regPort, (runCommand_of_ok hd s).trans (by rw [present_self]), by simp [Instr.isCalc]⟩
  | set idx => exact ⟨r, runCommand_of_ok hd _, fun _ => rfl⟩
  | clear idx => exact ⟨r, runCommand_of_ok hd _, fun _ => rfl⟩
  | read idx => exact ⟨r, runCommand_of_ok hd _, fun _ => rfl⟩

end Sys2Proof.Machine
end

