-- ==== Sys2Proof/Laws/PerInstr.lean ====
section
/-! SUPPORT. Statements made of every instruction as syntax, one lemma per constructor. -/

namespace Sys2Proof.Laws.EncodedFormat

/-- A CALC is encoded as a CALC24 word and a bit-field operation as a BF10 word that carries its index (R49, R52). -/
def Statement (i : Instr) : Prop :=
  match encode i with
  | .calc24 _ => i.isCalc = true ∧ i.index = none
  | .bf10 w => i.isCalc = false ∧ i.index = some (idxField w)

theorem or (a b : Byte) : Statement (.or a b) := ⟨rfl, rfl⟩
theorem and (a b : Byte) : Statement (.and a b) := ⟨rfl, rfl⟩
theorem xor (a b : Byte) : Statement (.xor a b) := ⟨rfl, rfl⟩
theorem add (a b : Byte) : Statement (.add a b) := ⟨rfl, rfl⟩
theorem sub (a b : Byte) : Statement (.sub a b) := ⟨rfl, rfl⟩
theorem set (idx : Byte) : Statement (.set idx) := ⟨rfl, congrArg some (idxField_bfWord 0#2 idx).symm⟩
theorem clear (idx : Byte) : Statement (.clear idx) := ⟨rfl, congrArg some (idxField_bfWord 1#2 idx).symm⟩
theorem read (idx : Byte) : Statement (.read idx) := ⟨rfl, congrArg some (idxField_bfWord 2#2 idx).symm⟩

end Sys2Proof.Laws.EncodedFormat
end

