-- ==== Sys2Proof/Tests/Slice0.lean ====
section
/-! SUPPORT. The model's own tests: well-formedness refuses, every constructor's word decodes, one step per vector of
95_test_vectors.md (the expected values are that file's), and for each statement with hypotheses a witness that meets
them. -/

namespace Sys2Proof.Tests

open Sys2Proof.Machine Sys2Proof.Claim

/-- The state after an answer, if it goes on. -/
def after : Answer → Option State
  | .next s => some s
  | .fault _ => none
  | .refused _ => none

/-- SR and the latest output after an answer. -/
def seen (a : Answer) : Option (Byte × Option Output) := (after a).map fun s => (s.sr, s.outputs.getLast?)

/-- The fault mark after an answer. -/
def mark (a : Answer) : Option Fault := (after a).bind State.faultMark

/-- A launch of `ts`, with SR = `sr`. -/
def issued (sr : Byte) (ts : List Transaction) : State := (State.launch ts).writeSR sr

/-- One CALC step from SR = `sr`. -/
def calcStep (sr : Byte) (w : BitVec 24) : Answer := step (issued sr [.calculate w])

/-- One bit-field step on REG = `v` of `w` bits. -/
def bitStep (word : BitVec 10) (w v : Nat) : Answer := step (issued 0x13#8 [.bitField word (RegValue.ofNat w v)])

/-! ### Well-formedness refuses (the smoke test) -/

theorem test_index_at_width_does_not_fit : Instr.fits 8 (.set 8#8) = false := by decide
theorem test_clear_and_read_at_width_do_not_fit :
    Instr.fits 1 (.clear 1#8) = false ∧ Instr.fits 255 (.read 255#8) = false := by decide
theorem test_top_index_fits : Instr.fits 256 (.read 255#8) = true ∧ Instr.fits 1 (.set 0#8) = true := by decide
theorem test_repeated_code_is_ill_formed :
    OpcodeMap.wellFormed { opcodeMap with sub := 0x04#8 } = false ∧
    OpcodeMap.wellFormed { opcodeMap with or := 0x00#8 } = false := by decide
theorem test_default_map_is_well_formed : opcodeMap.wellFormed = true := by decide
theorem test_illegal_codes :
    opcodeMap.legal 0x00#8 = false ∧ opcodeMap.legal 0x06#8 = false ∧ opcodeMap.legal 0xFF#8 = false := by decide

/-! ### Decoding: each word is written from the formats of R49 and R52 -/

theorem test_decode_or : decode (.calc24 0b000000010010000000000001#24) = .ok (.or 0x20#8 0x01#8) := by decide
theorem test_decode_and : decode (.calc24 0b000000100010010000100000#24) = .ok (.and 0x24#8 0x20#8) := by decide
theorem test_decode_xor : decode (.calc24 0b000000111111111100001111#24) = .ok (.xor 0xFF#8 0x0F#8) := by decide
theorem test_decode_add : decode (.calc24 0b000001000110010000110010#24) = .ok (.add 100#8 50#8) := by decide
theorem test_decode_sub : decode (.calc24 0b000001011001110000110010#24) = .ok (.sub 156#8 50#8) := by decide
theorem test_decode_set : decode (.bf10 0b0000000011#10) = .ok (.set 3#8) := by decide
theorem test_decode_clear : decode (.bf10 0b0100000111#10) = .ok (.clear 7#8) := by decide
theorem test_decode_read : decode (.bf10 0b1000001000#10) = .ok (.read 8#8) := by decide
theorem test_decode_rejects_nop : decode (.calc24 0x000102#24) = .error (.undefinedOperation 0#8) := by decide
theorem test_decode_rejects_reserved : decode (.bf10 0x300#10) = .error (.undefinedBitOp 3#2) := by decide
theorem test_table_words :
    decodeTableWord 24 0x05FFFF = some (.sub 0xFF#8 0xFF#8) ∧ decodeTableWord 16 0x1FF = some (.clear 0xFF#8) ∧
    decodeTableWord 16 0x400 = none ∧ decodeTableWord 24 0x060000 = none := by decide

/-! ### One step per vector (95_test_vectors.md sections 1 and 2) -/

theorem test_or_prior_flags_discarded : seen (calcStep 0x1F#8 0x010102#24) = some (0x00#8, some (.y 0x03#8)) := by decide
theorem test_or_all_ones : seen (calcStep 0#8 0x0155AA#24) = some (0x18#8, some (.y 0xFF#8)) := by decide
theorem test_and_clears_reserved : seen (calcStep 0xE0#8 0x020000#24) = some (0x04#8, some (.y 0x00#8)) := by decide
theorem test_and_negative : seen (calcStep 0#8 0x02F0CC#24) = some (0x18#8, some (.y 0xC0#8)) := by decide
theorem test_xor_same_operand : seen (calcStep 0x83#8 0x035A5A#24) = some (0x04#8, some (.y 0x00#8)) := by decide
theorem test_xor_bit_seven : seen (calcStep 0#8 0x03FF7F#24) = some (0x18#8, some (.y 0x80#8)) := by decide
theorem test_add_carry_without_zero : seen (calcStep 0#8 0x0401FF#24) = some (0x01#8, some (.y 0x00#8)) := by decide
theorem test_add_carry_and_overflow : seen (calcStep 0xFF#8 0x048080#24) = some (0x13#8, some (.y 0x00#8)) := by decide
theorem test_sub_below_has_no_carry : seen (calcStep 0#8 0x050305#24) = some (0x18#8, some (.y 0xFE#8)) := by decide
theorem test_sub_source_case : seen (calcStep 0#8 0x059C32#24) = some (0x12#8, some (.y 0x6A#8)) := by decide
theorem test_set_keeps_other_bits :
    seen (bitStep 0x000#10 8 0x20) = some (0x13#8, some (.regOut (RegValue.ofNat 8 0x21))) := by decide
theorem test_set_top_of_sixteen :
    seen (bitStep 0x00F#10 16 0) = some (0x13#8, some (.regOut (RegValue.ofNat 16 0x8000))) := by decide
theorem test_clear_bit_eight_of_sixteen :
    seen (bitStep 0x108#10 16 0xFFFF) = some (0x13#8, some (.regOut (RegValue.ofNat 16 0xFEFF))) := by decide
theorem test_clear_in_status_value :
    seen (bitStep 0x104#10 8 0x13) = some (0x13#8, some (.regOut (RegValue.ofNat 8 0x03))) := by decide
theorem test_read_carry_position : seen (bitStep 0x208#10 16 0x01FE) = some (0x13#8, some (.bit 1#1)) := by decide
theorem test_read_no_carry : seen (bitStep 0x208#10 16 0x00FF) = some (0x13#8, some (.bit 0#1)) := by decide
theorem test_index_equal_to_width : mark (bitStep 0x208#10 8 0) = some (.bitIndexOutOfRange 8#8 8) := by decide
theorem test_index_beyond_width : mark (bitStep 0x0C8#10 8 0xFF) = some (.bitIndexOutOfRange 200#8 8) := by decide
theorem test_reserved_bfop_wins : mark (bitStep 0x3FF#10 8 0) = some (.undefinedBitOp 3#2) := by decide
theorem test_nop_word_faults : mark (calcStep 0#8 0x000102#24) = some (.undefinedOperation 0x00#8) := by decide
theorem test_host_write_keeps_reserved :
    seen (step (issued 0x13#8 [.writeSR 0xFF#8])) = some (0xFF#8, some .nothing) := by decide
theorem test_reset_clears : seen (step (issued 0xFF#8 [.reset])) = some (0x00#8, some .nothing) := by decide
theorem test_fault_codes :
    (Fault.undefinedOperation 0#8).code = 1 ∧ (Fault.undefinedBitOp 3#2).code = 2 ∧
    (Fault.bitIndexOutOfRange 8#8 8).code = 3 := by decide

/-! ### Another OPCODE_MAP (R9) -/

/-- An admissible map that shares no code with the default's own operation of the same name. -/
def otherMap : OpcodeMap := ⟨0xFF#8, 0x05#8, 0x40#8, 0x20#8, 0x10#8, 0x00#8⟩

theorem test_step_under_another_map :
    seen (stepWith otherMap (State.launch [.calculate 0x106432#24])) = some (0x0A#8, some (.y 0x96#8)) ∧
    seen (stepWith otherMap (State.launch [.calculate 0x052001#24])) = some (0x00#8, some (.y 0x21#8)) := by decide
theorem test_default_code_is_undefined_under_another_map :
    mark (stepWith otherMap (State.launch [.calculate 0x046432#24])) = some (.undefinedOperation 0x04#8) ∧
    mark (stepWith otherMap (State.launch [.calculate 0xFF0000#24])) = some (.undefinedOperation 0xFF#8) := by decide
theorem test_assemble_under_another_map :
    assembleWith otherMap "SUB -100, 50".toList = .ok (.calculate 0x009C32#24) ∧
    assembleWith otherMap "NOP 1, 2".toList = .error .unknownOperation := by decide

/-! ### Assembler lines (30_encoding.md section 6, 95_test_vectors.md section 1.1) -/

theorem test_assemble_add : assemble "ADD 100, 50".toList = .ok (.calculate 0x046432#24) := by decide
theorem test_assemble_negative : assemble "SUB -100, 50".toList = .ok (.calculate 0x059C32#24) := by decide
theorem test_assemble_hex : assemble "XOR 0xFF, 0x0F".toList = .ok (.calculate 0x03FF0F#24) := by decide
theorem test_assemble_read :
    assemble "read.16 0x0100, 8".toList = .ok (.bitField 0x208#10 (RegValue.ofNat 16 0x0100)) := by decide
theorem test_assemble_width_omitted :
    assemble "clear 0xFF, 7".toList = .ok (.bitField 0x107#10 (RegValue.ofNat 8 0xFF)) := by decide
theorem test_assemble_rejects :
    assemble "add 1, 1".toList = .error .unknownOperation ∧ assemble "NOP 1, 2".toList = .error .unknownOperation ∧
    assemble "ADD 256, 0".toList = .error .badOperands ∧ assemble "ADD -0, 0".toList = .error .badOperands ∧
    assemble "set.8 0x00, 8".toList = .error .badOperands ∧ assemble "set.0 0, 0".toList = .error .badWidth := by
  decide

/-! ### Witnesses: every statement's hypotheses are met -/

/-- A state whose fault mark is set. -/
def faulted : State := { State.reset with faultMark := some (.undefinedOperation 0#8) }

theorem witness_StepRunsTheDecodedCommand :
    (issued 0#8 [.calculate 0x046432#24]).faultMark = none ∧
    decode (.calc24 0x046432#24) = .ok (.add 100#8 50#8) ∧ decode (.bf10 0x007#10) = .ok (.set 7#8) := by decide
theorem witness_PlacedTableWordIsRunNext :
    decodeTableWord 24 0x010000 = some (.or 0#8 0#8) ∧ decodeTableWord 10 0x2FF = some (.read 0xFF#8) := by decide
theorem witness_placed_words_run :
    seen (step (State.reset.withFetchWord 24 0x05FFFF)) = some (0x04#8, some (.y 0#8)) ∧
    seen (step (State.reset.withFetchWord 16 0x2FF)) = some (0x00#8, some (.bit 0#1)) ∧
    seen (step (faulted.withFetchWord 24 0x0155AA)) = some (0x18#8, some (.y 0xFF#8)) := by decide
theorem witness_HostAccessesOfSR :
    ∀ t ∈ [Transaction.readSR, .writeSR 0xFF#8, .reset],
      (issued 0x1F#8 [t]).faultMark = none ∧ (issued 0x1F#8 [t]).pending = t :: [] := by decide
theorem witness_StepAfterTheLastTransactionIsRefused :
    State.reset.faultMark = none ∧ State.reset.pending = [] := by decide
theorem witness_UndefinedOperationRaises :
    CommandWord.calc24 0x000102#24 = wordOf (0x00#8).toNat 1#8 2#8 ∧
    CommandWord.calc24 0x060000#24 = wordOf (0x06#8).toNat 0#8 0#8 ∧
    CommandWord.calc24 0xFFFFFF#24 = wordOf (0xFF#8).toNat 0xFF#8 0xFF#8 ∧ 5 < (0x06#8).toNat := by decide
theorem witness_ReservedBitOpRaisesFirst :
    CommandWord.bf10 0x300#10 = bfWordOf 3 0#8 ∧ CommandWord.bf10 0x3FF#10 = bfWordOf 3 0xFF#8 := by decide
theorem witness_BitIndexOutOfRangeRaises :
    (Instr.set 8#8).index = some 8#8 ∧ (RegValue.ofNat 8 0).width ≤ (8#8).toNat ∧
    (Instr.clear 1#8).index = some 1#8 ∧ (RegValue.ofNat 1 1).width ≤ (1#8).toNat ∧
    (Instr.read 255#8).index = some 255#8 ∧ (RegValue.ofNat 255 0).width ≤ (255#8).toNat := by decide
theorem witness_FaultedStateIsFinal : faulted.faultMark = some (.undefinedOperation 0#8) := by decide
theorem witness_InDomainTransactionCompletes :
    ∀ t ∈ [Transaction.calculate 0x010000#24, .calculate 0x05FFFF#24, .bitField 0x0FF#10 (RegValue.ofNat 256 0),
      .bitField 0x200#10 (RegValue.ofNat 1 0), .readSR, .writeSR 0#8, .reset], t.inDomain = true := by decide
theorem witness_EveryStepCompletesOrMarksAFault :
    (after (calcStep 0#8 0x010102#24)).isSome = true ∧ (after (calcStep 0#8 0x000102#24)).isSome = true := by decide
theorem witness_OrResultAndFlags : ((0x80#8).getLsbD 7 || (0x01#8).getLsbD 7) = true := by decide
theorem witness_AndResultAndFlags : ∀ k < 8, ((0xF0#8).getLsbD k && (0x0F#8).getLsbD k) = false := by decide
theorem witness_AddResultAndFlags :
    150 = (100#8).toNat + (50#8).toNat ∧
    true = ((100#8).getLsbD 7 == (50#8).getLsbD 7 && (150 : Nat).testBit 7 != (100#8).getLsbD 7) := by decide
theorem witness_SubResultAndFlags :
    ((254 : Nat) : Int) = ((3#8).toNat : Int) - (5#8).toNat + 256 ∧ (3#8).toNat < (5#8).toNat ∧
    ((0 : Nat) : Int) = ((5#8).toNat : Int) - (5#8).toNat ∧ ¬(5#8).toNat < (5#8).toNat := by decide
theorem witness_FlagsAreDerivedUniformly :
    wideNumber (.add 255#8 255#8) = some 510 ∧ wideNumber (.sub 3#8 5#8) = some 254 ∧
    wideNumber (.or 0#8 0#8) = some 0 := by decide
theorem witness_SubShowsNoUnsignedBorrow :
    after (exec (.sub 3#8 5#8) State.reset) = some { State.reset with sr := 0x18#8, outputs := [.y 0xFE#8] } ∧
    after (exec (.sub 255#8 1#8) State.reset) = some { State.reset with sr := 0x18#8, outputs := [.y 0xFE#8] } := by decide
theorem witness_IntermediateWidthIsUnobservable : 9 ≤ 9 ∧ 9 ≤ Config.IW := by decide
theorem witness_CalcIsATotalFunctionOfItsOperands :
    ∀ i ∈ [Instr.or 0#8 0#8, .and 0#8 0#8, .xor 0#8 0#8, .add 0#8 0#8, .sub 0#8 0#8], i.isCalc = true := by decide
theorem witness_EightStatusValuesAfterACalc :
    (Instr.add 128#8 128#8).isCalc = true ∧ (after (exec (.add 128#8 128#8) State.reset)).isSome = true := by decide
theorem witness_SetResultAndFrame :
    (7#8).toNat < (RegValue.ofNat 8 0x80).width ∧ (RegValue.ofNat 8 0x80).bitAt (7#8).toNat = true ∧
    (0#8).toNat < (RegValue.ofNat 1 0).width ∧ (255#8).toNat < (RegValue.ofNat 256 0).width ∧
    (RegValue.ofNat 8 0).width ≤ (8#8).toNat := by decide
theorem witness_ClearResultAndFrame :
    (3#8).toNat < (RegValue.ofNat 8 0).width ∧ (RegValue.ofNat 8 0).bitAt (3#8).toNat = false ∧
    (RegValue.ofNat 8 0).width ≤ (200#8).toNat := by decide
/-- A bit-field operation in range gives its output. -/
theorem gives {i : Instr} {idx : Byte} {out : RegValue → Output} {r : RegValue} {o : Output}
    (hi : ∀ s, exec i s = withBitIndex idx out s) (hr : idx.toNat < r.width) (ho : out r = o) : BitFieldGives i r o := by
  rintro s rfl
  rw [hi, withBitIndex_inRange hr, ho]
  rfl
theorem witness_clear_after_set :
    BitFieldGives (.set 0#8) (RegValue.ofNat 8 0x20) (.regOut (RegValue.ofNat 8 0x21)) ∧
    BitFieldGives (.clear 0#8) (RegValue.ofNat 8 0x20) (.regOut (RegValue.ofNat 8 0x20)) :=
  ⟨gives (idx := 0#8) (out := fun r => .regOut (r.withBitSet 0#8)) (fun _ => rfl) (by decide) (by decide),
    gives (idx := 0#8) (out := fun r => .regOut (r.withBitClear 0#8)) (fun _ => rfl) (by decide) (by decide)⟩
theorem witness_set_after_clear :
    BitFieldGives (.clear 5#8) (RegValue.ofNat 8 0x20) (.regOut (RegValue.ofNat 8 0x00)) ∧
    BitFieldGives (.set 5#8) (RegValue.ofNat 8 0x20) (.regOut (RegValue.ofNat 8 0x20)) :=
  ⟨gives (idx := 5#8) (out := fun r => .regOut (r.withBitClear 5#8)) (fun _ => rfl) (by decide) (by decide),
    gives (idx := 5#8) (out := fun r => .regOut (r.withBitSet 5#8)) (fun _ => rfl) (by decide) (by decide)⟩
theorem witness_ReadResultAndFrame :
    (255#8).toNat < (RegValue.ofNat 256 0).width ∧ (RegValue.ofNat 255 0).width ≤ (255#8).toNat := by decide
theorem witness_BitFieldDependsOnRegAndIndexAlone :
    (Instr.set 8#8).isCalc = false ∧ (Instr.set 8#8).fits 8 = false ∧ (Instr.read 7#8).fits 8 = true := by decide
theorem witness_HostSetsAStatusBitInThreeTransactions :
    decode (.bf10 0x007#10) = .ok (.set 7#8) ∧
    (∀ j < 8, (0x93#8).getLsbD j = (decide (j = (7#8).toNat) || (0x13#8).getLsbD j)) ∧
    (issued 0x13#8 [.readSR, .bitField 0x007#10 (RegValue.ofByte 0x13#8), .writeSR 0x93#8]).pending =
      .readSR :: .bitField 0x007#10 (RegValue.ofByte (issued 0x13#8 []).sr) :: .writeSR 0x93#8 :: [] := by decide
theorem witness_DecodeOfEncodeIsTheInstruction :
    opcodeMap.wellFormed = true ∧ OpcodeMap.wellFormed ⟨0xFF#8, 0x80#8, 0x40#8, 0x20#8, 0x10#8, 0x00#8⟩ = true := by decide
theorem witness_DecodedWordIsTheEncoding :
    decodeWith opcodeMap (.calc24 0x0503FF#24) = .ok (.sub 0x03#8 0xFF#8) ∧
    decodeWith opcodeMap (.bf10 0x2FF#10) = .ok (.read 0xFF#8) := by decide
theorem witness_ExactlyTheUndefinedCodesAreRejected :
    (0x00FFFF#24).toNat / 65536 = 0 ∧ 5 < (0x060000#24).toNat / 65536 ∧ (0x300#10).toNat / 256 = 3 := by decide
theorem witness_SignLawFailsOnlyAfterAHostWrite :
    (after (step (issued 0x18#8 [.readSR]))).isSome = true ∧
    (∀ v : Byte, (issued 0x18#8 [.readSR]).pending.head? ≠ some (.writeSR v)) ∧ SignLaw 0x18#8 := by
  refine ⟨by decide, fun v h => ?_, by unfold SignLaw; decide⟩
  cases h
theorem witness_EveryStepKeepsTheFlagLaw :
    (issued 0x13#8 [.writeSR 0x04#8, .calculate 0x048080#24]).flagInv = true ∧
    (after (step (issued 0x13#8 [.writeSR 0x04#8, .calculate 0x048080#24]))).isSome = true ∧
    (issued 0xFF#8 []).flagInv = false := by decide
theorem witness_OnlyCalcWriteAndResetChangeSR :
    (after (step (issued 0x13#8 [.reset]))).map State.sr = some 0x00#8 ∧ (0x00#8 : Byte) ≠ 0x13#8 := by decide
theorem witness_HostReadAfterACalcSeesItsFlags :
    (issued 0xFF#8 [.calculate 0x048080#24, .readSR]).pending = .calculate 0x048080#24 :: .readSR :: [] ∧
    decode (.calc24 0x048080#24) = .ok (.add 0x80#8 0x80#8) := by decide
theorem witness_HostWriteAffectsNoLaterCalc :
    State.reset.faultMark = none ∧ decode (.calc24 0x010102#24) = .ok (.or 1#8 2#8) := by decide
theorem witness_LaterIssueDoesNotAffectAStep :
    (after (step (issued 0#8 [.bitField 0x008#10 (RegValue.ofNat 8 0)]))).isSome = true := by decide
theorem witness_IdlePortIsNeverObserved :
    (after (step (issued 0#8 [.calculate 0x0401FF#24]))).isSome = true := by decide
theorem witness_RunEndsWellExactlyWhenDutiesAreKept :
    (issued 0#8 [.calculate 0x050503#24, .readSR]).dutiesKept = true ∧
    (issued 0#8 [.calculate 0x050503#24, .calculate 0x000102#24]).dutiesKept = false := by decide
theorem witness_RunDeliversOneOutputPerTransaction :
    (issued 0#8 [.calculate 0x050503#24, .readSR]).faultMark = none := by decide
theorem witness_StepRunsTheDecodedCommandUnderEveryMap :
    decodeWith otherMap (.calc24 0x106432#24) = .ok (.add 100#8 50#8) ∧
    decodeWith otherMap (.bf10 0x2FF#10) = .ok (.read 0xFF#8) ∧
    opField 0x046432#24 ∉ [otherMap.or, otherMap.and, otherMap.xor, otherMap.add, otherMap.sub] ∧
    opField 0xFFFFFF#24 ∉ [otherMap.or, otherMap.and, otherMap.xor, otherMap.add, otherMap.sub] ∧
    bfopField 0x3FF#10 = 3#2 ∧ (State.launch [.calculate 0x106432#24]).faultMark = none := by decide
theorem witness_MnemonicsRunAlikeUnderEveryMap :
    opcodeMap.wellFormed = true ∧ otherMap.wellFormed = true := by decide
theorem witness_RunEndsWellExactlyWhenDutiesAreKeptUnderEveryMap :
    (State.launch [.calculate 0x106432#24, .readSR]).dutiesKeptWith otherMap = true ∧
    (State.launch [.calculate 0x046432#24, .readSR]).dutiesKeptWith otherMap = false := by decide
theorem witness_EveryStepKeepsTheFlagLawUnderEveryMap :
    (State.launch [.calculate 0x106432#24]).flagInv = true ∧
    (after (stepWith otherMap (State.launch [.calculate 0x106432#24]))).isSome = true := by decide
theorem witness_NamesAndCalcLinesUnderEveryMap :
    (0xFF#8 : Byte) ∉ [otherMap.or, otherMap.and, otherMap.xor, otherMap.add, otherMap.sub] ∧
    "add" ∉ ["OR", "AND", "XOR", "ADD", "SUB"] := by decide
theorem witness_InstancesShareNoState :
    ∃ is', stepInstance 1 [State.reset, issued 0x1F#8 [.reset]] = .next is' := ⟨_, rfl⟩
theorem witness_StepsOfDifferentInstancesCommute :
    (∃ is1, stepInstance 0 [issued 1#8 [.readSR], issued 2#8 [.reset]] = .next is1) ∧
    (∃ is2, stepInstance 1 [issued 1#8 [.readSR], issued 2#8 [.reset]] = .next is2) := ⟨⟨_, rfl⟩, ⟨_, rfl⟩⟩
theorem witness_ParseOperationMatchesFiveNames : "NOP" ∉ ["OR", "AND", "XOR", "ADD", "SUB"] := by decide
theorem witness_NamesAndSymbolsAreTotal :
    opcodeMap.legal opcodeMap.nop = false ∧ opcodeMap.legal 0x05#8 = true := by decide
theorem witness_DecimalCalcLinesAssemble : opcodeMap.legal 0x05#8 = true ∧ 128 ≤ (156#8).toNat := by decide
theorem witness_DecimalSetLinesAssemble :
    (1 ≤ 1 ∧ 1 ≤ 256 ∧ 1 < 2 ^ 1 ∧ 0 < 1) ∧ (256 ≤ 256 ∧ 2 ^ 255 < 2 ^ 256 ∧ 255 < 256) := by norm_num
theorem witness_UnknownMnemonicsAreRejected :
    ' ' ∉ ['a', 'd', 'd'] ∧ String.ofList ['a', 'd', 'd'] ∉ ["OR", "AND", "XOR", "ADD", "SUB"] ∧
    (splitAt '.' ['a', 'd', 'd']).1 ∉ [['s', 'e', 't'], ['c', 'l', 'e', 'a', 'r'], ['r', 'e', 'a', 'd']] := by decide

end Sys2Proof.Tests
end

section
/-! What a command and a run do under any OPCODE_MAP (R9, decision D3): an instruction's encoding decodes to it, a
transaction does not look at what is issued after it, and a run takes one step at a time. -/

namespace Sys2Proof

/-- The decoder undoes the encoder under every admissible map (R9, R48 to R54): its six codes are pairwise distinct, so no
earlier test of the decoder takes an operation's code for another's. -/
theorem decodeWith_encodeWith {m : OpcodeMap} (hm : m.wellFormed = true) (i : Instr) :
    decodeWith m (encodeWith m i) = .ok i := by
  have hnodup : m.codes.Nodup := of_decide_eq_true hm
  simp only [OpcodeMap.codes, List.nodup_cons, List.mem_cons, List.not_mem_nil, not_or, or_false] at hnodup
  obtain ⟨-, ⟨hor_and, hor_xor, hor_add, hor_sub⟩, ⟨hand_xor, hand_add, hand_sub⟩, ⟨hxor_add, hxor_sub⟩, hadd_sub, -⟩ :=
    hnodup
  cases i with
  | or a b => simp [encodeWith, decodeWith, decodeCalc, opField_calcWord, aField_calcWord, bField_calcWord]
  | and a b =>
    simp [encodeWith, decodeWith, decodeCalc, opField_calcWord, aField_calcWord, bField_calcWord, Ne.symm hor_and]
  | xor a b =>
    simp [encodeWith, decodeWith, decodeCalc, opField_calcWord, aField_calcWord, bField_calcWord, Ne.symm hor_xor,
      Ne.symm hand_xor]
  | add a b =>
    simp [encodeWith, decodeWith, decodeCalc, opField_calcWord, aField_calcWord, bField_calcWord, Ne.symm hor_add,
      Ne.symm hand_add, Ne.symm hxor_add]
  | sub a b =>
    simp [encodeWith, decodeWith, decodeCalc, opField_calcWord, aField_calcWord, bField_calcWord, Ne.symm hor_sub,
      Ne.symm hand_sub, Ne.symm hxor_sub, Ne.symm hadd_sub]
  | set idx => simp [encodeWith, decodeWith, decodeBf, bfopField_bfWord, idxField_bfWord]
  | clear idx => simp [encodeWith, decodeWith, decodeBf, bfopField_bfWord, idxField_bfWord]
  | read idx => simp [encodeWith, decodeWith, decodeBf, bfopField_bfWord, idxField_bfWord]

end Sys2Proof

namespace Sys2Proof.Machine

/-! ### A transaction does not look at what is issued after it (R40) -/

theorem finishCalc_withPending {iw : Nat} (t : BitVec iw) (v : Bool) (s : State) :
    ∃ s' : State, ∀ ts, finishCalc t v (s.withPending ts) = .next (s'.withPending ts) :=
  ⟨(s.writeSR (derivedSR t v)).deliver (.y (resultByte t)), fun _ => rfl⟩

theorem withBitIndex_withPending (idx : Byte) (out : RegValue → Output) (s : State) :
    ∃ s' : State, ∀ ts, withBitIndex idx out (s.withPending ts) = .next (s'.withPending ts) := by
  by_cases h : s.regPort.width ≤ idx.toNat
  · exact ⟨s.markFault (.bitIndexOutOfRange idx s.regPort.width), fun ts =>
      withBitIndex_outOfRange (s := s.withPending ts) h out⟩
  · exact ⟨s.deliver (out s.regPort), fun ts => withBitIndex_inRange (s := s.withPending ts) (by simpa using h) out⟩

/-- An instruction always answers a next state, the same one up to what is still to be performed. -/
theorem exec_withPending (i : Instr) (s : State) :
    ∃ s' : State, ∀ ts, exec i (s.withPending ts) = .next (s'.withPending ts) := by
  cases i with
  | or a b => exact finishCalc_withPending (orWide Config.IW a b) _ s
  | and a b => exact finishCalc_withPending (andWide Config.IW a b) _ s
  | xor a b => exact finishCalc_withPending (xorWide Config.IW a b) _ s
  | add a b => exact finishCalc_withPending (addWide Config.IW a b) _ s
  | sub a b => exact finishCalc_withPending (subWide Config.IW a b) _ s
  | set idx => exact withBitIndex_withPending idx (fun r => .regOut (r.withBitSet idx)) s
  | clear idx => exact withBitIndex_withPending idx (fun r => .regOut (r.withBitClear idx)) s
  | read idx => exact withBitIndex_withPending idx (fun r => .bit (r.bitOut idx)) s

theorem runCommand_withPending (m : OpcodeMap) (w : CommandWord) (s : State) :
    ∃ s' : State, ∀ ts, runCommand m w (s.withPending ts) = .next (s'.withPending ts) := by
  cases hd : decodeWith m w with
  | ok i =>
    obtain ⟨s', hs'⟩ := exec_withPending i s
    exact ⟨s', fun ts => (runCommand_of_ok hd _).trans (hs' ts)⟩
  | error r => exact ⟨s.markFault (rejectFault r), fun ts => runCommand_of_error hd _⟩

/-- A transaction always answers a next state, the same one up to what is still to be performed. -/
theorem transact_withPending (m : OpcodeMap) (t : Transaction) (s : State) :
    ∃ s' : State, ∀ ts, transact m t (s.withPending ts) = .next (s'.withPending ts) := by
  cases t with
  | calculate w => exact runCommand_withPending m (.calc24 w) s
  | bitField w r => exact runCommand_withPending m (.bf10 w) (s.presentReg r)
  | readSR => exact ⟨s.deliver (.srValue s.sr), fun _ => rfl⟩
  | writeSR v => exact ⟨(s.writeSR v).deliver .nothing, fun _ => rfl⟩
  | reset => exact ⟨s.resetInstance.deliver .nothing, fun _ => rfl⟩

/-! ### An issued instruction under an admissible map (R9) -/

/-- An issued instruction is performed as itself: a CALC on the state as it is, a bit-field operation with its REG on the
port. The right side does not name the map. -/
theorem transact_issueAs_eq {m : OpcodeMap} (hm : m.wellFormed = true) (i : Instr) (r : RegValue) (s : State) :
    transact m (issueAs m i r) s = exec i (if i.isCalc then s else s.presentReg r) := by
  have hd := decodeWith_encodeWith hm i
  cases i with
  | or a b => exact runCommand_of_ok hd s
  | and a b => exact runCommand_of_ok hd s
  | xor a b => exact runCommand_of_ok hd s
  | add a b => exact runCommand_of_ok hd s
  | sub a b => exact runCommand_of_ok hd s
  | set idx => exact runCommand_of_ok hd (s.presentReg r)
  | clear idx => exact runCommand_of_ok hd (s.presentReg r)
  | read idx => exact runCommand_of_ok hd (s.presentReg r)

/-! ### One step of a run -/

theorem run_succ_of_next {M : Host.Core} {s s' : M.State} (h : M.step s = .next s') (k : Nat) :
    M.run (k + 1) s = M.run k s' := by
  simp only [Host.Core.run, h]

theorem run_succ_of_fault {M : Host.Core} {s : M.State} {f : M.Fault} (h : M.step s = .fault f) (k : Nat) :
    M.run (k + 1) s = .fault f := by
  simp only [Host.Core.run, h]

end Sys2Proof.Machine
end

section
/-! The statements about the scope: mnemonics under every OPCODE_MAP, and the signed views and the flag string. -/

namespace Sys2Proof.Machine

/-- A program of mnemonics ends alike under two admissible maps: each instruction is performed alike, and what is issued
after it, which the maps encode differently, is not looked at. -/
theorem run_issueAs_eq {m n : OpcodeMap} (hm : m.wellFormed = true) (hn : n.wellFormed = true)
    (prog : List (Instr × RegValue)) (s : State) :
    (coreWith m).run prog.length (s.withPending (prog.map fun p => issueAs m p.1 p.2)) =
      (coreWith n).run prog.length (s.withPending (prog.map fun p => issueAs n p.1 p.2)) := by
  induction prog generalizing s with
  | nil => rfl
  | cons p prog ih =>
    cases hmark : s.faultMark with
    | some f =>
      have stops (o : OpcodeMap) (ts : List Transaction) :
          (coreWith o).run (prog.length + 1) (s.withPending ts) = .fault f :=
        run_succ_of_fault (M := coreWith o) (stepWith_of_faulted o (s := s.withPending ts) hmark) _
      exact (stops m _).trans (stops n _).symm
    | none =>
      obtain ⟨s', hs'⟩ := transact_withPending m (issueAs m p.1 p.2) s
      have first (o : OpcodeMap) (ho : o.wellFormed = true) (ts : List Transaction) :
          stepWith o (s.withPending (issueAs o p.1 p.2 :: ts)) = .next (s'.withPending ts) :=
        calc stepWith o (s.withPending (issueAs o p.1 p.2 :: ts))
            = transact o (issueAs o p.1 p.2) (s.withPending ts) := stepWith_of_pending o hmark rfl
          _ = transact m (issueAs m p.1 p.2) (s.withPending ts) := by
            rw [transact_issueAs_eq ho, transact_issueAs_eq hm]
          _ = .next (s'.withPending ts) := hs' ts
      have unrolls (o : OpcodeMap) (ho : o.wellFormed = true) (ts : List Transaction) :
          (coreWith o).run (prog.length + 1) (s.withPending (issueAs o p.1 p.2 :: ts)) =
            (coreWith o).run prog.length (s'.withPending ts) :=
        run_succ_of_next (M := coreWith o) (first o ho ts) _
      exact (unrolls m hm _).trans ((ih s').trans (unrolls n hn _).symm)

/-- An admissible map in which the default code of ADD names nothing. -/
def mapWithoutCodeFour : OpcodeMap := { opcodeMap with add := 0x06#8 }

/-- Settles O55: by `run_issueAs_eq`; the numeric word of ADD 100, 50 under the default map is an undefined operation under
another one. -/
theorem mnemonicsRunAlikeUnderEveryMap : Obligations.MnemonicsRunAlikeUnderEveryMap := by
  refine ⟨fun m n hm hn prog s => run_issueAs_eq hm hn prog s,
    opcodeMap, mapWithoutCodeFour, 0x046432#24, by decide, by decide, ?_⟩
  have hcompletes : stepWith opcodeMap (State.launch [.calculate 0x046432#24]) =
      .next { State.reset with sr := 0x0A#8, outputs := [.y 150#8] } := rfl
  have hfaults : stepWith mapWithoutCodeFour (State.launch [.calculate 0x046432#24]) =
      .next { State.reset with faultMark := some (.undefinedOperation 0x04#8) } := rfl
  rw [hcompletes, hfaults]
  simp

/-- R11's signed view is the two's-complement value. -/
theorem sval8_eq_toInt (v : Byte) : sval8 v = v.toInt := by
  have hmsb : v.msb = bitRead v 7 := rfl
  rw [BitVec.toInt_eq_msb_cond, hmsb]
  rfl

/-- Settles O48: the definitions are the rules R11, R12 and R63 themselves, and `sval8_eq_toInt` gives the signed value. -/
theorem signedViewsAndFlagString : Obligations.SignedViewsAndFlagString :=
  ⟨fun _ => rfl, sval8_eq_toInt, fun _ _ => rfl, by decide, by decide, by decide, fun _ => rfl, by decide⟩

end Sys2Proof.Machine
end

section
/-! The sign law S == N xor V (R24): every CALC establishes it, and of the transactions only a host write of SR does not
keep it. -/

namespace Sys2Proof.Machine

open Sys2Proof.Claim

/-! ### What an instruction does to SR -/

/-- A CALC is the finishing of an intermediate and an overflow bit that do not depend on the state (R69). -/
theorem exec_of_isCalc {i : Instr} (hi : i.isCalc = true) :
    ∃ (t : BitVec Config.IW) (v : Bool), ∀ s, exec i s = finishCalc t v s := by
  cases i with
  | or a b => exact ⟨orWide Config.IW a b, false, fun _ => rfl⟩
  | and a b => exact ⟨andWide Config.IW a b, false, fun _ => rfl⟩
  | xor a b => exact ⟨xorWide Config.IW a b, false, fun _ => rfl⟩
  | add a b => exact ⟨addWide Config.IW a b, addOverflow a b (addWide Config.IW a b), fun _ => rfl⟩
  | sub a b => exact ⟨subWide Config.IW a b, subOverflow a b (subWide Config.IW a b), fun _ => rfl⟩
  | set idx => cases hi
  | clear idx => cases hi
  | read idx => cases hi

/-- Delivering or faulting, a bit-field operation writes no SR (R64). -/
theorem withBitIndex_sr (idx : Byte) (out : RegValue → Output) (s : State) :
    ∃ s', withBitIndex idx out s = .next s' ∧ s'.sr = s.sr := by
  by_cases h : s.regPort.width ≤ idx.toNat
  · exact ⟨_, withBitIndex_outOfRange h out, State.markFault_sr _ s⟩
  · exact ⟨_, withBitIndex_inRange (by omega) out, State.deliver_sr _ s⟩

theorem exec_sr_of_not_isCalc {i : Instr} (hi : i.isCalc = false) (s : State) :
    ∃ s', exec i s = .next s' ∧ s'.sr = s.sr := by
  cases i with
  | or a b => cases hi
  | and a b => cases hi
  | xor a b => cases hi
  | add a b => cases hi
  | sub a b => cases hi
  | set idx => exact withBitIndex_sr idx (fun r => .regOut (r.withBitSet idx)) s
  | clear idx => exact withBitIndex_sr idx (fun r => .regOut (r.withBitClear idx)) s
  | read idx => exact withBitIndex_sr idx (fun r => .bit (r.bitOut idx)) s

/-! ### The sign law -/

/-- A status byte whose S flag is made as N xor V meets the law, whatever N, Z, V and C are. -/
theorem signLaw_srOf (n z v c : Bool) : SignLaw (srOf (n ^^ v) n z v c) := by
  obtain ⟨hS, hN, -, hV, -, -⟩ := srOf_fields (n ^^ v) n z v c
  rw [SignLaw, hS, hN, hV]

theorem exec_signLaw_of_isCalc {i : Instr} (hi : i.isCalc = true) (s : State) :
    ∃ s', exec i s = .next s' ∧ SignLaw s'.sr := by
  obtain ⟨t, v, hexec⟩ := exec_of_isCalc hi
  exact ⟨_, (hexec s).trans (finishCalc_eq t v s), signLaw_srOf ..⟩

theorem exec_keeps_signLaw {i : Instr} {s s' : State} (h : exec i s = .next s') (hs : SignLaw s.sr) :
    SignLaw s'.sr := by
  cases hi : i.isCalc with
  | true =>
    obtain ⟨q, hq, hlaw⟩ := exec_signLaw_of_isCalc hi s
    cases hq.symm.trans h
    exact hlaw
  | false =>
    obtain ⟨q, hq, hsr⟩ := exec_sr_of_not_isCalc hi s
    cases hq.symm.trans h
    exact hsr ▸ hs

theorem runCommand_keeps_signLaw {m : OpcodeMap} {w : CommandWord} {s s' : State}
    (h : runCommand m w s = .next s') (hs : SignLaw s.sr) : SignLaw s'.sr := by
  cases hd : decodeWith m w with
  | ok i => exact exec_keeps_signLaw ((runCommand_of_ok hd s).symm.trans h) hs
  | error r =>
    cases (runCommand_of_error hd s).symm.trans h
    exact hs

/-- Every transaction but a host write of SR keeps the law: a command by `exec_keeps_signLaw`, a host read because it
writes nothing (R21), and a reset because 0x00 meets it (R31). -/
theorem transact_keeps_signLaw {m : OpcodeMap} {t : Transaction} {s s' : State} (ht : ∀ v, t ≠ .writeSR v)
    (h : transact m t s = .next s') (hs : SignLaw s.sr) : SignLaw s'.sr := by
  cases t with
  | calculate w => exact runCommand_keeps_signLaw (w := .calc24 w) h hs
  | bitField w r => exact runCommand_keeps_signLaw (w := .bf10 w) (s := s.presentReg r) h hs
  | readSR => cases h; exact hs
  | writeSR v => exact absurd rfl (ht v)
  | reset => cases h; exact signLaw_srOf false false false false

theorem stepWith_keeps_signLaw {m : OpcodeMap} {s s' : State} (h : stepWith m s = .next s')
    (hw : ∀ v, s.pending.head? ≠ some (.writeSR v)) (hs : SignLaw s.sr) : SignLaw s'.sr := by
  obtain ⟨-, t, rest, hp, htransact⟩ := stepWith_next_inv h
  have ht (v : Byte) : t ≠ .writeSR v := by simpa [hp] using hw v
  exact transact_keeps_signLaw ht htransact hs

/-- Settles O36: a CALC establishes the law (`exec_signLaw_of_isCalc`), and a step whose transaction is not a host write
keeps it (`stepWith_keeps_signLaw`). -/
theorem signLawFailsOnlyAfterAHostWrite : Obligations.SignLawFailsOnlyAfterAHostWrite :=
  ⟨fun _ s hi => exec_signLaw_of_isCalc hi s, fun _ _ => stepWith_keeps_signLaw⟩

end Sys2Proof.Machine
end

section
/-! The memory chapter's two rules: the host sets a bit of SR by a read, a set and a write (R45), and steps of different
instances commute (R41). -/

namespace Sys2Proof.Machine

/-! ### A bit of SR set by the host (R45) -/

/-- The bits of `set(r, k)` determine it: bit k is 1 and every other bit is that of `r` (R65). -/
theorem eq_bitSet_of_getLsbD {w k : Nat} {v r : BitVec w}
    (h : ∀ j < w, v.getLsbD j = (decide (j = k) || r.getLsbD j)) : v = bitSet r k := by
  apply BitVec.eq_of_getLsbD_eq
  intro j hj
  have hset : (bitSet r k).getLsbD j = if j = k then true else r.getLsbD j := bitRead_bitSet r k j hj
  rw [h j hj, hset]
  by_cases hjk : j = k <;> simp [hjk]

theorem exec_set_inRange {k : Byte} {s : State} (hk : k.toNat < s.regPort.width) :
    exec (.set k) s = .next (s.deliver (.regOut (s.regPort.withBitSet k))) :=
  withBitIndex_inRange hk fun r => .regOut (r.withBitSet k)

/-- A `set` transaction with IDX < W presents its REG and delivers REG_OUT; it writes no SR (R64, R65). -/
theorem transact_set_inRange {m : OpcodeMap} {w : BitVec 10} {k : Byte} {r : RegValue}
    (hd : decodeWith m (.bf10 w) = .ok (.set k)) (hk : k.toNat < r.width) (s : State) :
    transact m (.bitField w r) s = .next ((s.presentReg r).deliver (.regOut (r.withBitSet k))) :=
  (runCommand_of_ok hd _).trans (exec_set_inRange hk)

/-- A run of an unfaulted instance performs the oldest issued transaction first (R40). -/
theorem core_run_succ_of_pending {n : Nat} {s s' : State} {t : Transaction} {rest : List Transaction}
    (hm : s.faultMark = none) (hp : s.pending = t :: rest) (ht : transact opcodeMap t (s.withPending rest) = .next s') :
    core.run (n + 1) s = core.run n s' :=
  run_succ_of_next (M := core) ((stepWith_of_pending opcodeMap hm hp).trans ht) n

/-- Settles O31: the value written is the one read with bit k set (`eq_bitSet_of_getLsbD`), so REG_OUT of the second
transaction (`transact_set_inRange`) is that value; the three transactions are performed one after another. -/
theorem hostSetsAStatusBitInThreeTransactions : Obligations.HostSetsAStatusBitInThreeTransactions := by
  intro s k w v rest hmark hk hd hbits hpending
  have hv : (RegValue.ofByte s.sr).withBitSet k = RegValue.ofByte v :=
    congrArg RegValue.ofByte (eq_bitSet_of_getLsbD hbits).symm
  have hset := transact_set_inRange (r := RegValue.ofByte s.sr) hd hk
  rw [hv] at hset
  calc core.run 3 s
      = core.run 2 ((s.withPending (.bitField w (.ofByte s.sr) :: .writeSR v :: rest)).deliver (.srValue s.sr)) :=
        core_run_succ_of_pending hmark hpending rfl
    _ = core.run 1 ((((s.withPending (.writeSR v :: rest)).deliver (.srValue s.sr)).presentReg (.ofByte s.sr)).deliver
          (.regOut (.ofByte v))) := core_run_succ_of_pending hmark rfl (hset _)
    _ = core.run 0 ((((((s.withPending rest).deliver (.srValue s.sr)).presentReg (.ofByte s.sr)).deliver
          (.regOut (.ofByte v))).writeSR v).deliver .nothing) := core_run_succ_of_pending hmark rfl rfl
    _ = .next { s with
          sr := v, pending := rest, regPort := .ofByte s.sr,
          outputs := s.outputs ++ [.srValue s.sr, .regOut (.ofByte v), .nothing] } :=
        congrArg Host.Outcome.next (State.eq_of_fields rfl rfl rfl rfl (by simp))

/-! ### Steps of different instances (R30, R41) -/

theorem stepInstanceWith_of_next {m : OpcodeMap} {k : Nat} {is : Instances} {s s' : State} (hk : is[k]? = some s)
    (hs : stepWith m s = .next s') : stepInstanceWith m k is = .next (is.set k s') := by
  simp only [stepInstanceWith, hk, hs]

/-- A step of instance `k` that answers next states is a step of the state at place `k`, put back there. -/
theorem stepInstanceWith_next_inv {m : OpcodeMap} {k : Nat} {is is' : Instances}
    (h : stepInstanceWith m k is = .next is') :
    ∃ s s', is[k]? = some s ∧ stepWith m s = .next s' ∧ is' = is.set k s' := by
  cases hk : is[k]? with
  | none => simp [stepInstanceWith, hk] at h
  | some s =>
    cases hs : stepWith m s with
    | next s' =>
      cases (stepInstanceWith_of_next hk hs).symm.trans h
      exact ⟨s, s', rfl, hs, rfl⟩
    | fault f => simp [stepInstanceWith, hk, hs] at h
    | refused r => simp [stepInstanceWith, hk, hs] at h

/-- Instance `k` steps as before when the state of another instance `j` is replaced (R30). -/
theorem stepInstanceWith_set_ne {m : OpcodeMap} {j k : Nat} {is : Instances} {s s' : State} (hjk : j ≠ k)
    (hk : is[k]? = some s) (hs : stepWith m s = .next s') (t : State) :
    stepInstanceWith m k (is.set j t) = .next ((is.set j t).set k s') :=
  stepInstanceWith_of_next ((List.getElem?_set_ne hjk).trans hk) hs

theorem stepInstanceWith_comm {m : OpcodeMap} {j k : Nat} {is is1 is2 : Instances} (hjk : j ≠ k)
    (hj : stepInstanceWith m j is = .next is1) (hk : stepInstanceWith m k is = .next is2) :
    ∃ u, stepInstanceWith m k is1 = .next u ∧ stepInstanceWith m j is2 = .next u := by
  obtain ⟨s, s', hsj, hstepj, rfl⟩ := stepInstanceWith_next_inv hj
  obtain ⟨t, t', htk, hstepk, rfl⟩ := stepInstanceWith_next_inv hk
  refine ⟨(is.set j s').set k t', stepInstanceWith_set_ne hjk htk hstepk s', ?_⟩
  rw [List.set_comm _ _ hjk]
  exact stepInstanceWith_set_ne hjk.symm hsj hstepj t'

/-- Settles O47: `stepInstanceWith_comm` under the default map. -/
theorem stepsOfDifferentInstancesCommute : Obligations.StepsOfDifferentInstancesCommute :=
  fun _ _ _ _ _ hjk hj hk => stepInstanceWith_comm hjk hj hk

end Sys2Proof.Machine
end

section
/-! The operation-name lookups (R55 to R58): the names are parsed exactly, and names and symbols are total. -/

namespace Sys2Proof

/-- What is none of five values fails each of the five tests that a lookup makes. -/
theorem notMem_five_iff {α : Type} {x a b c d e : α} :
    x ∉ [a, b, c, d, e] ↔ x ≠ a ∧ x ≠ b ∧ x ≠ c ∧ x ≠ d ∧ x ≠ e := by
  simp

theorem OpcodeMap.legal_iff_mem {m : OpcodeMap} {op : Byte} :
    m.legal op = true ↔ op ∈ [m.or, m.and, m.xor, m.add, m.sub] := by
  simp [OpcodeMap.legal, or_assoc]

theorem OpcodeMap.legal_eq_false_iff_notMem {m : OpcodeMap} {op : Byte} :
    m.legal op = false ↔ op ∉ [m.or, m.and, m.xor, m.add, m.sub] := by
  rw [← Bool.not_eq_true, legal_iff_mem]

end Sys2Proof

namespace Sys2Proof.Machine

/-! ### parse_operation (R58) -/

@[simp] theorem parseOperationWith_OR (m : OpcodeMap) : parseOperationWith m "OR" = m.or := rfl
@[simp] theorem parseOperationWith_AND (m : OpcodeMap) : parseOperationWith m "AND" = m.and := rfl
@[simp] theorem parseOperationWith_XOR (m : OpcodeMap) : parseOperationWith m "XOR" = m.xor := rfl
@[simp] theorem parseOperationWith_ADD (m : OpcodeMap) : parseOperationWith m "ADD" = m.add := rfl
@[simp] theorem parseOperationWith_SUB (m : OpcodeMap) : parseOperationWith m "SUB" = m.sub := rfl

theorem parseOperationWith_of_notMem {name : String} (h : name ∉ ["OR", "AND", "XOR", "ADD", "SUB"])
    (m : OpcodeMap) : parseOperationWith m name = m.nop := by
  obtain ⟨hor, hand, hxor, hadd, hsub⟩ := notMem_five_iff.mp h
  rw [parseOperationWith, if_neg hor, if_neg hand, if_neg hxor, if_neg hadd, if_neg hsub]

/-- Settles O49: each of the five names meets its own test of `parseOperationWith`, and a text that is none of them, as
"add" and the empty one, meets none. -/
theorem parseOperationMatchesFiveNames : Obligations.ParseOperationMatchesFiveNames := by
  have hother (name : String) (h : name ∉ ["OR", "AND", "XOR", "ADD", "SUB"]) :
      parseOperation name = opcodeMap.nop := parseOperationWith_of_notMem h opcodeMap
  exact ⟨parseOperationWith_OR _, parseOperationWith_AND _, parseOperationWith_XOR _, parseOperationWith_ADD _,
    parseOperationWith_SUB _, hother, hother "add" (by decide), hother "" (by decide)⟩

/-! ### operation_name and operator_symbol (R55 to R57) -/

theorem operationNameWith_of_notMem {m : OpcodeMap} {op : Byte} (h : op ∉ [m.or, m.and, m.xor, m.add, m.sub]) :
    operationNameWith m op = "Unknown" := by
  obtain ⟨hor, hand, hxor, hadd, hsub⟩ := notMem_five_iff.mp h
  rw [operationNameWith, if_neg hor, if_neg hand, if_neg hxor, if_neg hadd, if_neg hsub]

theorem operatorSymbolWith_of_notMem {m : OpcodeMap} {op : Byte} (h : op ∉ [m.or, m.and, m.xor, m.add, m.sub]) :
    operatorSymbolWith m op = "Unknown" := by
  obtain ⟨hor, hand, hxor, hadd, hsub⟩ := notMem_five_iff.mp h
  rw [operatorSymbolWith, if_neg hor, if_neg hand, if_neg hxor, if_neg hadd, if_neg hsub]

/-- The name of a legal code is parsed back to it, under any map: the name belongs to the first code of the map that `op`
equals, and parsing gives that code. -/
theorem parseOperationWith_operationNameWith {m : OpcodeMap} {op : Byte} (h : m.legal op = true) :
    parseOperationWith m (operationNameWith m op) = op := by
  rw [OpcodeMap.legal_iff_mem] at h
  fun_cases operationNameWith m op with
  | case1 hor => exact (parseOperationWith_OR m).trans hor.symm
  | case2 _ hand => exact (parseOperationWith_AND m).trans hand.symm
  | case3 _ _ hxor => exact (parseOperationWith_XOR m).trans hxor.symm
  | case4 _ _ _ hadd => exact (parseOperationWith_ADD m).trans hadd.symm
  | case5 _ _ _ _ hsub => exact (parseOperationWith_SUB m).trans hsub.symm
  | case6 hor hand hxor hadd hsub => exact absurd h (notMem_five_iff.mpr ⟨hor, hand, hxor, hadd, hsub⟩)

/-- Settles O50: the names and symbols of the default map's five codes are evaluated; a code that is not legal is none of
the five, and a legal one is recovered by `parseOperationWith_operationNameWith`. -/
theorem namesAndSymbolsAreTotal : Obligations.NamesAndSymbolsAreTotal := by
  have hunknown (op : Byte) (h : opcodeMap.legal op = false) :
      operationName op = "Unknown" ∧ operatorSymbol op = "Unknown" :=
    have hop := OpcodeMap.legal_eq_false_iff_notMem.mp h
    ⟨operationNameWith_of_notMem hop, operatorSymbolWith_of_notMem hop⟩
  exact ⟨rfl, rfl, rfl, rfl, rfl, rfl, rfl, rfl, rfl, rfl, hunknown, fun _ => parseOperationWith_operationNameWith⟩

end Sys2Proof.Machine
end

section
/-! The bit-field operations set, clear and read (R64 to R67): what each delivers in range and marks out of range, what the
bits of its output are, and that nothing but a CALC, a host write and a reset changes SR. -/

namespace Sys2Proof

open Sys2Proof.Claim

/-! ### The instructions with an index (R52) -/

theorem eq_of_index {i : Instr} {idx : Byte} (hi : i.index = some idx) :
    i = .set idx ∨ i = .clear idx ∨ i = .read idx := by
  cases i with
  | or a b => cases hi
  | and a b => cases hi
  | xor a b => cases hi
  | add a b => cases hi
  | sub a b => cases hi
  | set k => cases hi; exact .inl rfl
  | clear k => cases hi; exact .inr (.inl rfl)
  | read k => cases hi; exact .inr (.inr rfl)

theorem index_of_not_isCalc {i : Instr} (hi : i.isCalc = false) : ∃ idx, i.index = some idx := by
  cases i with
  | or a b => cases hi
  | and a b => cases hi
  | xor a b => cases hi
  | add a b => cases hi
  | sub a b => cases hi
  | set idx => exact ⟨idx, rfl⟩
  | clear idx => exact ⟨idx, rfl⟩
  | read idx => exact ⟨idx, rfl⟩

/-- An operation with an index fits exactly when its index is in range (R53). -/
theorem fits_of_index {i : Instr} {idx : Byte} (hi : i.index = some idx) (w : Nat) :
    i.fits w = decide (idx.toNat < w) := by
  simp only [Instr.fits, hi]

/-! ### The BF word of a BFOP and an IDX (R52) -/

/-- The word made as a number, BFOP * 256 + IDX, is the packing of the two fields. -/
theorem bfWordOf_toNat (bfop : BitVec 2) (idx : Byte) : bfWordOf bfop.toNat idx = .bf10 (bfWord bfop idx) := by
  refine congrArg CommandWord.bf10 (BitVec.eq_of_toNat_eq ?_)
  have hidx := idx.isLt
  have hbfop := bfop.isLt
  rw [bfWord, BitVec.toNat_append, ← Nat.shiftLeft_add_eq_or_of_lt hidx, Nat.shiftLeft_eq, BitVec.toNat_ofNat]
  omega

/-- The instruction whose encoding is the BF word of these fields is what that word decodes to. -/
theorem decode_bfWordOf {i : Instr} {bfop : BitVec 2} {idx : Byte} (h : encode i = .bf10 (bfWord bfop idx)) :
    decode (bfWordOf bfop.toNat idx) = .ok i := by
  rw [bfWordOf_toNat, ← h]
  exact decodeWith_encodeWith (by decide) i

/-- No BF word decodes to a CALC (R52, R54). -/
theorem isCalc_of_decodeBf {w : BitVec 10} {i : Instr} (h : decodeBf w = .ok i) : i.isCalc = false := by
  unfold decodeBf at h
  split at h
  · cases h; rfl
  · split at h
    · cases h; rfl
    · split at h
      · cases h; rfl
      · cases h

end Sys2Proof

namespace Sys2Proof.Machine

open Sys2Proof.Claim

/-! ### The bits of REG_OUT and BIT -/

/-- The bits of `clear(r, k)` determine it: bit k is 0 and every other bit is that of `r` (R66). -/
theorem eq_bitClear_of_getLsbD {w k : Nat} {v r : BitVec w}
    (h : ∀ j < w, v.getLsbD j = (!decide (j = k) && r.getLsbD j)) : v = bitClear r k := by
  apply BitVec.eq_of_getLsbD_eq
  intro j hj
  have hclear : (bitClear r k).getLsbD j = if j = k then false else r.getLsbD j := bitRead_bitClear r k j hj
  rw [h j hj, hclear]
  by_cases hjk : j = k <;> simp [hjk]

theorem RegValue.bitAt_withBitSet {r : RegValue} {idx : Byte} {k : Nat} (hk : k < r.width) :
    (r.withBitSet idx).bitAt k = (decide (k = idx.toNat) || r.bitAt k) := by
  refine (bitRead_bitSet r.value idx.toNat k hk).trans ?_
  by_cases h : k = idx.toNat <;> simp [h, RegValue.bitAt]

theorem RegValue.bitAt_withBitClear {r : RegValue} {idx : Byte} {k : Nat} (hk : k < r.width) :
    (r.withBitClear idx).bitAt k = (!decide (k = idx.toNat) && r.bitAt k) := by
  refine (bitRead_bitClear r.value idx.toNat k hk).trans ?_
  by_cases h : k = idx.toNat <;> simp [h, RegValue.bitAt]

/-- Setting a bit that is 1 changes nothing (R65). -/
theorem bitSet_of_bitRead {w k : Nat} {r : BitVec w} (h : bitRead r k = true) : bitSet r k = r := by
  refine (eq_bitSet_of_getLsbD fun j _ => ?_).symm
  have hk : r.getLsbD k = true := h
  by_cases hj : j = k <;> simp [hj, hk]

/-- Clearing a bit that is 0 changes nothing (R66). -/
theorem bitClear_of_bitRead {w k : Nat} {r : BitVec w} (h : bitRead r k = false) : bitClear r k = r := by
  refine (eq_bitClear_of_getLsbD fun j _ => ?_).symm
  have hk : r.getLsbD k = false := h
  by_cases hj : j = k <;> simp [hj, hk]

/-- clear after set is clear (R66): both leave 0 in bit k and the bits of `r` elsewhere. -/
theorem bitClear_bitSet {w : Nat} (r : BitVec w) (k : Nat) : bitClear (bitSet r k) k = bitClear r k := by
  refine eq_bitClear_of_getLsbD fun j hj => (bitRead_bitClear (bitSet r k) k j hj).trans ?_
  rw [bitRead_bitSet r k j hj]
  by_cases h : j = k <;> simp [h, bitRead]

/-- set after clear is set (R66): both leave 1 in bit k and the bits of `r` elsewhere. -/
theorem bitSet_bitClear {w : Nat} (r : BitVec w) (k : Nat) : bitSet (bitClear r k) k = bitSet r k := by
  refine eq_bitSet_of_getLsbD fun j hj => (bitRead_bitSet (bitClear r k) k j hj).trans ?_
  rw [bitRead_bitClear r k j hj]
  by_cases h : j = k <;> simp [h, bitRead]

theorem RegValue.withBitSet_of_bitAt {r : RegValue} {idx : Byte} (h : r.bitAt idx.toNat = true) :
    r.withBitSet idx = r :=
  congrArg (RegValue.mk r.top) (bitSet_of_bitRead h)

theorem RegValue.withBitClear_of_bitAt {r : RegValue} {idx : Byte} (h : r.bitAt idx.toNat = false) :
    r.withBitClear idx = r :=
  congrArg (RegValue.mk r.top) (bitClear_of_bitRead h)

theorem RegValue.withBitClear_withBitSet (r : RegValue) (idx : Byte) :
    (r.withBitSet idx).withBitClear idx = r.withBitClear idx :=
  congrArg (RegValue.mk r.top) (bitClear_bitSet r.value idx.toNat)

theorem RegValue.withBitSet_withBitClear (r : RegValue) (idx : Byte) :
    (r.withBitClear idx).withBitSet idx = r.withBitSet idx :=
  congrArg (RegValue.mk r.top) (bitSet_bitClear r.value idx.toNat)

/-- BIT is 1 for a set bit and 0 for a clear one (D9). -/
theorem RegValue.bitOut_eq_ite (r : RegValue) (idx : Byte) :
    r.bitOut idx = if r.bitAt idx.toNat = true then 1#1 else 0#1 := by
  cases h : bitRead r.value idx.toNat <;> simp [RegValue.bitOut, RegValue.bitAt, h]

theorem RegValue.width_ofNat {w : Nat} (hpos : 1 ≤ w) (hle : w ≤ 256) (v : Nat) : (RegValue.ofNat w v).width = w := by
  have htop : (Fin.ofNat 256 (w - 1)).val = w - 1 := Nat.mod_eq_of_lt (by omega)
  simp only [RegValue.width, RegValue.ofNat, htop]
  omega

theorem RegValue.bitAt_ofNat {w v k : Nat} (hk : k < (RegValue.ofNat w v).width) :
    (RegValue.ofNat w v).bitAt k = v.testBit k := by
  have hk' : k < (Fin.ofNat 256 (w - 1)).val + 1 := hk
  simp only [RegValue.bitAt, bitRead, RegValue.ofNat, BitVec.getLsbD_ofNat, hk', decide_true, Bool.true_and]

/-! ### What the operations deliver and raise -/

theorem exec_clear_inRange {k : Byte} {s : State} (hk : k.toNat < s.regPort.width) :
    exec (.clear k) s = .next (s.deliver (.regOut (s.regPort.withBitClear k))) :=
  withBitIndex_inRange hk fun r => .regOut (r.withBitClear k)

theorem exec_read_inRange {k : Byte} {s : State} (hk : k.toNat < s.regPort.width) :
    exec (.read k) s = .next (s.deliver (.bit (s.regPort.bitOut k))) :=
  withBitIndex_inRange hk fun r => .bit (r.bitOut k)

/-- Out of range, all three operations only mark the fault (R53, R97). -/
theorem exec_outOfRange {i : Instr} {k : Byte} (hi : i.index = some k) {s : State} (hk : s.regPort.width ≤ k.toNat) :
    exec i s = .next (s.markFault (.bitIndexOutOfRange k s.regPort.width)) := by
  obtain rfl | rfl | rfl := eq_of_index hi
  · exact withBitIndex_outOfRange hk fun r => .regOut (r.withBitSet k)
  · exact withBitIndex_outOfRange hk fun r => .regOut (r.withBitClear k)
  · exact withBitIndex_outOfRange hk fun r => .bit (r.bitOut k)

section
variable {idx : Byte} {r : RegValue}

theorem bitFieldGives_set (h : idx.toNat < r.width) : BitFieldGives (.set idx) r (.regOut (r.withBitSet idx)) := by
  rintro s rfl
  exact exec_set_inRange h

theorem bitFieldGives_clear (h : idx.toNat < r.width) :
    BitFieldGives (.clear idx) r (.regOut (r.withBitClear idx)) := by
  rintro s rfl
  exact exec_clear_inRange h

theorem bitFieldGives_read (h : idx.toNat < r.width) : BitFieldGives (.read idx) r (.bit (r.bitOut idx)) := by
  rintro s rfl
  exact exec_read_inRange h

theorem bitFieldRaises_of_index {i : Instr} (hi : i.index = some idx) (h : r.width ≤ idx.toNat) :
    BitFieldRaises i r (.bitIndexOutOfRange idx r.width) := by
  rintro s rfl
  exact exec_outOfRange hi h

/-- An operation delivers one output for one REG: two that it gives are equal, since it gives both after a reset with REG
on the port. -/
theorem bitFieldGives_unique {i : Instr} {o o' : Output} (h : BitFieldGives i r o) (h' : BitFieldGives i r o') :
    o = o' := by
  have heq := (h (State.reset.presentReg r) rfl).symm.trans (h' (State.reset.presentReg r) rfl)
  simpa using heq

theorem bitFieldGives_clear_after_set {out : RegValue} {o : Output} (h : idx.toNat < r.width)
    (hset : BitFieldGives (.set idx) r (.regOut out)) (hclear : BitFieldGives (.clear idx) r o) :
    BitFieldGives (.clear idx) out o := by
  cases bitFieldGives_unique hset (bitFieldGives_set h)
  rw [bitFieldGives_unique hclear (bitFieldGives_clear h), ← r.withBitClear_withBitSet idx]
  exact bitFieldGives_clear (r := r.withBitSet idx) h

theorem bitFieldGives_set_after_clear {out : RegValue} {o : Output} (h : idx.toNat < r.width)
    (hclear : BitFieldGives (.clear idx) r (.regOut out)) (hset : BitFieldGives (.set idx) r o) :
    BitFieldGives (.set idx) out o := by
  cases bitFieldGives_unique hclear (bitFieldGives_clear h)
  rw [bitFieldGives_unique hset (bitFieldGives_set h), ← r.withBitSet_withBitClear idx]
  exact bitFieldGives_set (r := r.withBitClear idx) h

end

/-- With W = 1, set of the only bit there is gives 1 (R65). -/
theorem RegValue.withBitSet_ofNat_one (v : Nat) : (RegValue.ofNat 1 v).withBitSet 0#8 = RegValue.ofNat 1 1 := by
  have hone : ∀ x : BitVec 1, bitSet x 0 = 1#1 := by decide
  exact congrArg (RegValue.mk 0) (hone (BitVec.ofNat 1 v))

/-- Settles O26: REG_OUT is `withBitSet`, whose bits are `bitAt_withBitSet`. -/
theorem setResultAndFrame : Obligations.SetResultAndFrame := by
  refine ⟨fun _ => decode_bfWordOf (bfop := 0#2) rfl, fun idx r h => ?_,
    fun _ _ => bitFieldRaises_of_index rfl, fun v => ?_, ?_⟩
  · exact ⟨r.withBitSet idx, bitFieldGives_set h, rfl, fun _ => RegValue.bitAt_withBitSet, RegValue.withBitSet_of_bitAt⟩
  · rw [← RegValue.withBitSet_ofNat_one v]
    exact bitFieldGives_set (r := RegValue.ofNat 1 v) Nat.one_pos
  · exact bitFieldGives_set (r := RegValue.ofNat 8 0x20) (by decide)

/-- Settles O27: REG_OUT is `withBitClear`, whose bits are `bitAt_withBitClear`; the compositions are
`withBitClear_withBitSet` and `withBitSet_withBitClear`. -/
theorem clearResultAndFrame : Obligations.ClearResultAndFrame := by
  refine ⟨fun _ => decode_bfWordOf (bfop := 1#2) rfl, fun idx r h => ?_,
    fun _ _ => bitFieldRaises_of_index rfl,
    fun _ _ _ _ h => ⟨bitFieldGives_clear_after_set h, bitFieldGives_set_after_clear h⟩, ?_⟩
  · exact ⟨r.withBitClear idx, bitFieldGives_clear h, rfl, fun _ => RegValue.bitAt_withBitClear,
      RegValue.withBitClear_of_bitAt⟩
  · exact bitFieldGives_clear (r := RegValue.ofNat 8 0xFF) (by decide)

/-- Settles O28: BIT is `bitOut`, which is 1 for a set bit (`bitOut_eq_ite`). -/
theorem readResultAndFrame : Obligations.ReadResultAndFrame := by
  refine ⟨fun _ => decode_bfWordOf (bfop := 2#2) rfl, fun idx r h => ?_,
    fun _ _ => bitFieldRaises_of_index rfl, ?_, ?_⟩
  · rw [← r.bitOut_eq_ite idx]
    exact bitFieldGives_read h
  · exact bitFieldGives_read (r := RegValue.ofNat 16 0x01FE) (by decide)
  · exact bitFieldGives_read (r := RegValue.ofNat 16 0x00FF) (by decide)

/-! ### The carry as a bit of the widened sum (R67, R68) -/

/-- A number below 512 has bit 8 set exactly when it is at least 256. -/
theorem testBit_eight_iff {n : Nat} (h : n < 512) : n.testBit 8 = true ↔ 256 ≤ n := by
  rw [Nat.testBit_eq_decide_div_mod_eq, decide_eq_true_iff]
  omega

theorem flagC_srOf (sF nF zF vF cF : Bool) : flagC (srOf sF nF zF vF cF) = cF := by
  obtain ⟨-, -, -, -, hC, -⟩ := srOf_fields sF nF zF vF cF
  exact hC

/-- ADD completes and leaves bit 8 of A + B in C (R74, R87). -/
theorem exec_add_flagC (a b : Byte) (s : State) :
    ∃ s', exec (.add a b) s = .next s' ∧ flagC s'.sr = (a.toNat + b.toNat).testBit 8 := by
  refine ⟨_, finishCalc_eq (addWide Config.IW a b) (addOverflow a b (addWide Config.IW a b)) s, ?_⟩
  rw [State.deliver_sr, State.writeSR_sr, flagC_srOf, bitRead_toNat, addWide_toNat (by decide)]

/-- Settles O29: C is bit 8 of A + B (`exec_add_flagC`), and so is the BIT that read delivers (`RegValue.bitAt_ofNat`). -/
theorem readOfBitEightIsTheCarry : Obligations.ReadOfBitEightIsTheCarry := by
  intro a b s
  obtain ⟨s', hexec, hC⟩ := exec_add_flagC a b s
  have hsum : a.toNat + b.toNat < 512 := by
    have ha := a.isLt
    have hb := b.isLt
    omega
  have hwidth : 8 < (RegValue.ofNat 16 (a.toNat + b.toNat)).width := by
    rw [RegValue.width_ofNat (by decide) (by decide)]
    decide
  refine ⟨s', _, hexec, hC, testBit_eight_iff hsum, ?_⟩
  rw [← RegValue.bitAt_ofNat hwidth]
  exact bitFieldGives_read hwidth

/-! ### Noninterference (R64) -/

/-- A bit-field operation in range delivers one output from every state: BIT for read, REG_OUT for set and clear. -/
theorem bitField_gives_of_inRange {i : Instr} {idx : Byte} {r : RegValue} (hi : i.index = some idx)
    (h : idx.toNat < r.width) :
    (∃ b, i = .read idx ∧ BitFieldGives i r (.bit b)) ∨
      (∃ q, (∀ k, i ≠ .read k) ∧ BitFieldGives i r (.regOut q)) := by
  obtain rfl | rfl | rfl := eq_of_index hi
  · exact .inr ⟨_, by simp, bitFieldGives_set h⟩
  · exact .inr ⟨_, by simp, bitFieldGives_clear h⟩
  · exact .inl ⟨_, rfl, bitFieldGives_read h⟩

/-- Settles O30: in range by `bitField_gives_of_inRange`, out of range by `bitFieldRaises_of_index`. -/
theorem bitFieldDependsOnRegAndIndexAlone : Obligations.BitFieldDependsOnRegAndIndexAlone := by
  intro i r hcalc
  obtain ⟨idx, hi⟩ := index_of_not_isCalc hcalc
  rw [fits_of_index hi]
  by_cases h : idx.toNat < r.width
  · refine .inl ⟨decide_eq_true h, ?_⟩
    obtain ⟨b, rfl, hgives⟩ | ⟨q, hread, hgives⟩ := bitField_gives_of_inRange hi h
    · exact ⟨.bit b, hgives, by simp, by simp⟩
    · exact ⟨.regOut q, hgives, by simp [hread], by simp [hread]⟩
  · exact .inr ⟨decide_eq_false h, _, bitFieldRaises_of_index hi (Nat.le_of_not_lt h)⟩

/-! ### Who changes SR (R18, R64) -/

/-- A command that changes SR is a CALC that decodes: a bit-field operation and a rejected word write no SR bit. -/
theorem runCommand_changes_sr {m : OpcodeMap} {w : CommandWord} {s s' : State} (h : runCommand m w s = .next s')
    (hne : s'.sr ≠ s.sr) : ∃ i, decodeWith m w = .ok i ∧ i.isCalc = true := by
  cases hd : decodeWith m w with
  | error r =>
    cases (runCommand_of_error hd s).symm.trans h
    exact absurd (State.markFault_sr _ s) hne
  | ok i =>
    refine ⟨i, rfl, ?_⟩
    cases hcalc : i.isCalc with
    | true => rfl
    | false =>
      obtain ⟨q, hq, hsr⟩ := exec_sr_of_not_isCalc hcalc s
      cases hq.symm.trans ((runCommand_of_ok hd s).symm.trans h)
      exact absurd hsr hne

theorem transact_changes_sr {m : OpcodeMap} {t : Transaction} {s s' : State} (h : transact m t s = .next s')
    (hne : s'.sr ≠ s.sr) :
    (∃ w i, t = .calculate w ∧ decodeWith m (.calc24 w) = .ok i ∧ i.isCalc = true) ∨ (∃ v, t = .writeSR v) ∨
      t = .reset := by
  cases t with
  | calculate w =>
    obtain ⟨i, hd, hcalc⟩ := runCommand_changes_sr (w := .calc24 w) h hne
    exact .inl ⟨w, i, rfl, hd, hcalc⟩
  | bitField w r =>
    obtain ⟨i, hd, hcalc⟩ := runCommand_changes_sr (w := .bf10 w) (s := s.presentReg r) h hne
    exact absurd hcalc (by simp [isCalc_of_decodeBf hd])
  | readSR => cases h; exact absurd (State.deliver_sr _ s) hne
  | writeSR v => exact .inr (.inl ⟨v, rfl⟩)
  | reset => exact .inr (.inr rfl)

/-- Settles O39: a step performs its oldest transaction (`stepWith_next_inv`), and `transact_changes_sr` says which ones
change SR. -/
theorem onlyCalcWriteAndResetChangeSR : Obligations.OnlyCalcWriteAndResetChangeSR := by
  intro s s' hstep hne
  obtain ⟨-, t, rest, hpending, htransact⟩ := stepWith_next_inv hstep
  exact ⟨t, by rw [hpending, List.head?_cons], transact_changes_sr htransact hne⟩

end Sys2Proof.Machine
end

section
/-! The ALU engine (R69 to R81): a finished CALC depends on the number of its intermediate alone, whatever the width of the
intermediate, and every CALC is the finishing of its mathematical intermediate. -/

namespace Sys2Proof.Machine

open Sys2Proof.Claim

/-! ### A finished CALC sees the number of its intermediate (R74 to R78) -/

theorem resultByte_eq_ofNat {iw : Nat} (t : BitVec iw) : resultByte t = BitVec.ofNat 8 t.toNat := by
  apply BitVec.eq_of_toNat_eq
  rw [resultByte_toNat, BitVec.toNat_ofNat]

/-- `finishCalc_eq` over the number of the intermediate: no clause mentions its width. -/
theorem finishCalc_eq_toNat {iw : Nat} (t : BitVec iw) (v : Bool) (s : State) :
    finishCalc t v s =
      .next ((s.writeSR (srOf (t.toNat.testBit 7 ^^ v) (t.toNat.testBit 7) (t.toNat == 0) v (t.toNat.testBit 8))).deliver
        (.y (BitVec.ofNat 8 t.toNat))) := by
  rw [finishCalc_eq, zero_test_toNat, resultByte_eq_ofNat, bitRead_toNat, bitRead_toNat]

theorem calcGives_of_finishCalc {i : Instr} {iw : Nat} {t : BitVec iw} {v : Bool}
    (h : ∀ s, exec i s = finishCalc t v s) :
    CalcGives i (BitVec.ofNat 8 t.toNat) (t.toNat.testBit 7 ^^ v) (t.toNat.testBit 7) (t.toNat == 0) v
      (t.toNat.testBit 8) :=
  fun s => (h s).trans (finishCalc_eq_toNat t v s)

/-! ### The flags of every CALC -/

/-- SUB's intermediate as a natural number (R89, R91). -/
theorem subWide_toNat_eq_ite {iw : Nat} (h : 9 ≤ iw) (a b : Byte) :
    (subWide iw a b).toNat = if a.toNat < b.toNat then a.toNat + 256 - b.toNat else a.toNat - b.toNat := by
  have hexact := subWide_toNat h a b
  rw [subExact] at hexact
  by_cases hlt : a.toNat < b.toNat
  · rw [if_pos hlt] at hexact ⊢
    omega
  · rw [if_neg hlt] at hexact ⊢
    omega

/-- Every CALC finishes a widened value of its mathematical intermediate, with V = 0 unless it is an ADD or a SUB. -/
theorem exec_of_wideNumber {i : Instr} {n : Nat} (hn : wideNumber i = some n) :
    ∃ (t : BitVec Config.IW) (v : Bool), t.toNat = n ∧ (∀ s, exec i s = finishCalc t v s) ∧
      ((∀ a b, i ≠ .add a b ∧ i ≠ .sub a b) → v = false) := by
  have hIW : 9 ≤ Config.IW := by decide
  cases i with
  | or a b =>
    cases hn
    exact ⟨orWide _ a b, false, (orWide_toNat hIW a b).trans (BitVec.toNat_or ..), fun _ => rfl, fun _ => rfl⟩
  | and a b =>
    cases hn
    exact ⟨andWide _ a b, false, (andWide_toNat hIW a b).trans (BitVec.toNat_and ..), fun _ => rfl, fun _ => rfl⟩
  | xor a b =>
    cases hn
    exact ⟨xorWide _ a b, false, (xorWide_toNat hIW a b).trans (BitVec.toNat_xor ..), fun _ => rfl, fun _ => rfl⟩
  | add a b =>
    cases hn
    exact ⟨addWide _ a b, _, addWide_toNat hIW a b, fun _ => rfl, fun hne => absurd rfl (hne a b).1⟩
  | sub a b =>
    cases hn
    exact ⟨subWide _ a b, _, subWide_toNat_eq_ite hIW a b, fun _ => rfl, fun hne => absurd rfl (hne a b).2⟩
  | set idx => cases hn
  | clear idx => cases hn
  | read idx => cases hn

/-- Settles O17: each CALC finishes its mathematical intermediate (`exec_of_wideNumber`), whose number alone decides Y and
the flags (`calcGives_of_finishCalc`). -/
theorem flagsAreDerivedUniformly : Obligations.FlagsAreDerivedUniformly := by
  intro i n hn
  obtain ⟨t, v, rfl, hexec, hv⟩ := exec_of_wideNumber hn
  exact ⟨v, calcGives_of_finishCalc hexec, hv⟩

/-- Settles O24: a CALC finishes an intermediate and an overflow bit that no state enters (`exec_of_isCalc`). -/
theorem calcIsATotalFunctionOfItsOperands : Obligations.CalcIsATotalFunctionOfItsOperands := by
  intro i hi
  obtain ⟨t, v, hexec⟩ := exec_of_isCalc hi
  obtain ⟨-, -, -, -, -, hreserved⟩ := srOf_fields (t.toNat.testBit 7 ^^ v) (t.toNat.testBit 7) (t.toNat == 0) v
    (t.toNat.testBit 8)
  exact ⟨_, _, _, _, _, _, calcGives_of_finishCalc hexec, hreserved⟩

/-! ### The width of the intermediate (R80) -/

section
variable {iw jw : Nat} {t : BitVec iw} {u : BitVec jw} (h : t.toNat = u.toNat)
include h

theorem finishCalc_congr (v : Bool) (s : State) : finishCalc t v s = finishCalc u v s := by
  rw [finishCalc_eq_toNat, finishCalc_eq_toNat, h]

theorem addOverflow_congr (a b : Byte) : addOverflow a b t = addOverflow a b u := by
  rw [addOverflow, addOverflow, bitRead_toNat t, bitRead_toNat u, h]

theorem subOverflow_congr (a b : Byte) : subOverflow a b t = subOverflow a b u := by
  rw [subOverflow, subOverflow, bitRead_toNat t, bitRead_toNat u, h]

end

section
variable {iw : Nat} (h : 9 ≤ iw) (a b : Byte)
include h

/-- Each intermediate is the same number at every width from 9 up, and so at the model's. -/
theorem wide_toNat_eq_at_IW :
    (orWide Config.IW a b).toNat = (orWide iw a b).toNat ∧ (andWide Config.IW a b).toNat = (andWide iw a b).toNat ∧
      (xorWide Config.IW a b).toNat = (xorWide iw a b).toNat ∧ (addWide Config.IW a b).toNat = (addWide iw a b).toNat ∧
      (subWide Config.IW a b).toNat = (subWide iw a b).toNat := by
  have hIW : 9 ≤ Config.IW := by decide
  refine ⟨?_, ?_, ?_, ?_, ?_⟩
  · rw [orWide_toNat hIW, orWide_toNat h]
  · rw [andWide_toNat hIW, andWide_toNat h]
  · rw [xorWide_toNat hIW, xorWide_toNat h]
  · rw [addWide_toNat hIW, addWide_toNat h]
  · rw [subWide_toNat_eq_ite hIW, subWide_toNat_eq_ite h]

theorem exec_add_eq_finishCalc (s : State) :
    exec (.add a b) s = finishCalc (addWide iw a b) (addOverflow a b (addWide iw a b)) s := by
  obtain ⟨-, -, -, hadd, -⟩ := wide_toNat_eq_at_IW h a b
  rw [← addOverflow_congr hadd]
  exact finishCalc_congr hadd _ s

theorem exec_sub_eq_finishCalc (s : State) :
    exec (.sub a b) s = finishCalc (subWide iw a b) (subOverflow a b (subWide iw a b)) s := by
  obtain ⟨-, -, -, -, hsub⟩ := wide_toNat_eq_at_IW h a b
  rw [← subOverflow_congr hsub]
  exact finishCalc_congr hsub _ s

theorem addWide_toNat_le : (addWide iw a b).toNat ≤ 510 := by
  have ha := a.isLt
  have hb := b.isLt
  rw [addWide_toNat h]
  omega

theorem subWide_toNat_le : (subWide iw a b).toNat ≤ 255 := by
  obtain ⟨-, hle⟩ := subExact_range a b
  have hexact := subWide_toNat h a b
  omega

theorem orWide_toNat_le : (orWide iw a b).toNat ≤ 255 :=
  (orWide_toNat h a b).trans_le (Nat.le_of_lt_succ (a ||| b).isLt)

theorem andWide_toNat_le : (andWide iw a b).toNat ≤ 255 :=
  (andWide_toNat h a b).trans_le (Nat.le_of_lt_succ (a &&& b).isLt)

theorem xorWide_toNat_le : (xorWide iw a b).toNat ≤ 255 :=
  (xorWide_toNat h a b).trans_le (Nat.le_of_lt_succ (a ^^^ b).isLt)

end

/-- Settles O23: a finished CALC sees only the number of its intermediate (`finishCalc_congr`), and that number is the same
at every width from 9 up (`wide_toNat_eq_at_IW`). -/
theorem intermediateWidthIsUnobservable : Obligations.IntermediateWidthIsUnobservable := by
  intro iw h a b s
  obtain ⟨hor, hand, hxor, -, -⟩ := wide_toNat_eq_at_IW h a b
  exact ⟨finishCalc_congr hor false s, finishCalc_congr hand false s, finishCalc_congr hxor false s,
    exec_add_eq_finishCalc h a b s, exec_sub_eq_finishCalc h a b s, addWide_toNat_le h a b, subWide_toNat_le h a b,
    orWide_toNat_le h a b, andWide_toNat_le h a b, xorWide_toNat_le h a b⟩

end Sys2Proof.Machine
end

section
/-! The CALC24 word of an OP and two operands (R49): the word made as a number decodes as the packing of its fields. -/

namespace Sys2Proof

open Sys2Proof.Claim

/-- The word made as a number, OP * 65536 + A * 256 + B, is the packing of the three fields. -/
theorem wordOf_toNat (op a b : Byte) : wordOf op.toNat a b = .calc24 (calcWord op a b) := by
  refine congrArg CommandWord.calc24 (BitVec.eq_of_toNat_eq ?_)
  have hop := op.isLt
  have ha := a.isLt
  have hb := b.isLt
  rw [calcWord, BitVec.toNat_append, BitVec.toNat_append, ← Nat.shiftLeft_add_eq_or_of_lt hb,
    ← Nat.shiftLeft_add_eq_or_of_lt ha, Nat.shiftLeft_eq, Nat.shiftLeft_eq, BitVec.toNat_ofNat]
  omega

/-- The instruction whose encoding is the CALC word of these fields is what that word decodes to. -/
theorem decode_wordOf {i : Instr} {op a b : Byte} (h : encode i = .calc24 (calcWord op a b)) :
    decode (wordOf op.toNat a b) = .ok i := by
  rw [wordOf_toNat, ← h]
  exact decodeWith_encodeWith (by decide) i

end Sys2Proof
end

section
/-! The logical operations OR, AND and XOR (R83 to R86): the intermediate is the zero-extended result byte, so every flag is
read from Y. -/

namespace Sys2Proof.Machine

open Sys2Proof.Claim

/-! ### The flags of a result that fits a byte -/

/-- When the intermediate of a CALC without overflow is the number of a byte, that byte is Y and decides the flags; bit 8 of
it is 0, hence C is. -/
theorem calcGives_of_toNat_eq {i : Instr} {iw : Nat} {t : BitVec iw} {y : Byte}
    (hexec : ∀ s, exec i s = finishCalc t false s) (ht : t.toNat = y.toNat) :
    CalcGives i y (y.getLsbD 7) (y.getLsbD 7) (y == 0#8) false false := by
  have hgives := calcGives_of_finishCalc hexec
  have hcarry : y.toNat.testBit 8 = false := Nat.testBit_lt_two_pow y.isLt
  rw [ht, hcarry, Bool.xor_false, BitVec.ofNat_toNat, BitVec.setWidth_eq] at hgives
  rwa [zero_test_toNat y]

theorem beq_zero_of_signBit {y : Byte} (h : y.getLsbD 7 = true) : (y == 0#8) = false := by
  refine beq_false_of_ne ?_
  rintro rfl
  cases h

/-! ### One rule per operation -/

section
variable {a b y : Byte}

theorem calcGives_or (h : a ||| b = y) :
    CalcGives (.or a b) y (y.getLsbD 7) (y.getLsbD 7) (y == 0#8) false false :=
  calcGives_of_toNat_eq (fun _ => rfl) (h ▸ orWide_toNat (by decide) a b)

theorem calcGives_and (h : a &&& b = y) :
    CalcGives (.and a b) y (y.getLsbD 7) (y.getLsbD 7) (y == 0#8) false false :=
  calcGives_of_toNat_eq (fun _ => rfl) (h ▸ andWide_toNat (by decide) a b)

theorem calcGives_xor (h : a ^^^ b = y) :
    CalcGives (.xor a b) y (y.getLsbD 7) (y.getLsbD 7) (y == 0#8) false false :=
  calcGives_of_toNat_eq (fun _ => rfl) (h ▸ xorWide_toNat (by decide) a b)

/-- Bit 7 of either operand makes OR's result negative, hence not zero (R84). -/
theorem calcGives_or_of_signBit (h : (a.getLsbD 7 || b.getLsbD 7) = true) :
    CalcGives (.or a b) (a ||| b) true true false false false := by
  have hsign : (a ||| b).getLsbD 7 = true := BitVec.getLsbD_or.trans h
  have hgives := calcGives_or (a := a) (b := b) rfl
  rwa [hsign, beq_zero_of_signBit hsign] at hgives

theorem and_eq_zero_of_disjoint (h : ∀ k < 8, (a.getLsbD k && b.getLsbD k) = false) : a &&& b = 0#8 := by
  apply BitVec.eq_of_getLsbD_eq
  intro k hk
  rw [BitVec.getLsbD_and, h k hk, BitVec.getLsbD_zero]

end

/-! ### The obligations -/

/-- Settles O12: each clause is `calcGives_or` at the value of A | B, with `calcGives_or_of_signBit` for a set bit 7. -/
theorem orResultAndFlags : Obligations.OrResultAndFlags :=
  ⟨fun _ _ => ⟨decode_wordOf (op := 0x01#8) rfl, calcGives_or rfl⟩,
    fun _ => ⟨_, _, _, _, _, calcGives_or BitVec.or_self⟩,
    calcGives_or rfl,
    fun _ _ => calcGives_or_of_signBit,
    fun _ _ => BitVec.or_eq_zero_iff,
    calcGives_or rfl⟩

/-- Settles O13: each clause is `calcGives_and` at the value of A & B, which is 0 for disjoint operands
(`and_eq_zero_of_disjoint`). -/
theorem andResultAndFlags : Obligations.AndResultAndFlags :=
  ⟨fun _ _ => ⟨decode_wordOf (op := 0x02#8) rfl, calcGives_and rfl⟩,
    fun _ => ⟨_, _, _, _, _, calcGives_and BitVec.and_self⟩,
    fun _ => calcGives_and BitVec.and_zero,
    calcGives_and rfl,
    fun _ _ h => calcGives_and (and_eq_zero_of_disjoint h),
    calcGives_and rfl⟩

/-- Settles O14: each clause is `calcGives_xor` at the value of A ^ B, which 0xFF, the byte of all ones, makes the
complement of A. -/
theorem xorResultAndFlags : Obligations.XorResultAndFlags :=
  ⟨fun _ _ => ⟨decode_wordOf (op := 0x03#8) rfl, calcGives_xor rfl⟩,
    fun _ => calcGives_xor BitVec.xor_self,
    fun _ => ⟨_, _, _, _, _, calcGives_xor BitVec.xor_allOnes⟩,
    fun _ _ => BitVec.xor_eq_zero_iff,
    calcGives_xor rfl⟩

end Sys2Proof.Machine
end

section
/-! The arithmetic operations ADD and SUB (R87 to R94): one rule each over the number they finish, their flags in closed form
over the signed views of the operands, and what Y and SR tell and do not tell of the exact result. -/

namespace Sys2Proof.Machine

open Sys2Proof.Claim

/-! ### One rule per operation (R87, R89) -/

/-- The byte A - B is the difference of the operands modulo 256. -/
theorem toNat_sub_eq_emod (a b : Byte) : ((a - b).toNat : Int) = ((a.toNat : Int) - b.toNat) % 256 := by
  have hb := b.isLt
  rw [BitVec.toNat_sub]
  omega

/-- R89's adjusted difference is the number of the byte A - B. -/
theorem toNat_sub_eq_subExact (a b : Byte) : ((a - b).toNat : Int) = subExact a b := by
  have ha := a.isLt
  have hb := b.isLt
  rw [toNat_sub_eq_emod, subExact]
  split <;> omega

theorem testBit_eight_toNat (y : Byte) : y.toNat.testBit 8 = false := Nat.testBit_lt_two_pow y.isLt

section
variable {a b : Byte} {v : Bool}

/-- ADD finishes the number A + B, with V from the sign bits. -/
theorem calcGives_add {n : Nat} (hn : a.toNat + b.toNat = n)
    (hv : (a.getLsbD 7 == b.getLsbD 7 && n.testBit 7 != a.getLsbD 7) = v) :
    CalcGives (.add a b) (BitVec.ofNat 8 n) (n.testBit 7 ^^ v) (n.testBit 7) (n == 0) v (n.testBit 8) := by
  have ht : (addWide Config.IW a b).toNat = n := (addWide_toNat (by decide) a b).trans hn
  have hoverflow : addOverflow a b (addWide Config.IW a b) = v := by
    rw [addOverflow, bitRead_toNat (addWide Config.IW a b), ht]
    exact hv
  have hgives := calcGives_of_finishCalc (i := .add a b) fun _ => rfl
  rwa [ht, hoverflow] at hgives

/-- SUB finishes the number of the byte A - B, with V from the sign bits; a byte has no bit 8, so C is 0 (R91). -/
theorem calcGives_sub {y : Byte} (hy : a - b = y) (hv : subOverflow a b y = v) :
    CalcGives (.sub a b) y (y.getLsbD 7 ^^ v) (y.getLsbD 7) (y == 0#8) v false := by
  have ht : (subWide Config.IW a b).toNat = y.toNat := by
    have hwide := subWide_toNat (iw := Config.IW) (by decide) a b
    rw [← toNat_sub_eq_subExact, hy] at hwide
    exact Int.ofNat_inj.mp hwide
  have hoverflow : subOverflow a b (subWide Config.IW a b) = v := (subOverflow_congr ht a b).trans hv
  have hgives := calcGives_of_finishCalc (i := .sub a b) fun _ => rfl
  rw [ht, hoverflow, testBit_eight_toNat, BitVec.ofNat_toNat, BitVec.setWidth_eq] at hgives
  rwa [zero_test_toNat y]

end

/-! ### The statements over the intermediate (R87, R89, R92) -/

/-- Doubling shifts A left by one: bit 7 of A + A is A[6] and bit 8 is A[7] (R87). -/
theorem calcGives_add_self (a : Byte) :
    CalcGives (.add a a) (BitVec.ofNat 8 (2 * a.toNat % 256)) (a.getLsbD 6 ^^ (a.getLsbD 7 != a.getLsbD 6))
      (a.getLsbD 6) (2 * a.toNat == 0) (a.getLsbD 7 != a.getLsbD 6) (a.getLsbD 7) := by
  have hbit (k : Nat) : (2 * a.toNat).testBit (k + 1) = a.getLsbD k := by
    rw [Nat.testBit_add_one, Nat.mul_div_cancel_left _ Nat.two_pos]
    rfl
  have hv : (a.getLsbD 7 == a.getLsbD 7 && (2 * a.toNat).testBit 7 != a.getLsbD 7) =
      (a.getLsbD 7 != a.getLsbD 6) := by
    rw [hbit 6, beq_self_eq_true, Bool.true_and, bne_comm]
  have hy : BitVec.ofNat 8 (2 * a.toNat % 256) = BitVec.ofNat 8 (2 * a.toNat) :=
    BitVec.eq_of_toNat_eq (by simp)
  have hgives := calcGives_add (Nat.two_mul a.toNat).symm hv
  rwa [hbit 6, hbit 7, ← hy] at hgives

/-- Settles O15: each clause is `calcGives_add` at the value of A + B; A + A is `calcGives_add_self`. -/
theorem addResultAndFlags : Obligations.AddResultAndFlags :=
  ⟨fun _ _ => decode_wordOf (op := 0x04#8) rfl,
    fun _ _ _ _ ht hv => calcGives_add ht.symm hv.symm,
    calcGives_add (n := 0) (v := false) rfl rfl,
    calcGives_add (n := 256) (v := false) rfl rfl,
    calcGives_add (n := 256) (v := true) rfl rfl,
    calcGives_add (n := 128) (v := true) rfl rfl,
    calcGives_add (n := 510) (v := false) rfl rfl,
    fun a => ⟨_, _, _, calcGives_add_self a⟩,
    calcGives_add (n := 150) (v := true) rfl rfl⟩

theorem calcGives_sub_self (a : Byte) : CalcGives (.sub a a) 0x00#8 false false true false false :=
  calcGives_sub (v := false) (BitVec.sub_self a) (by simp [subOverflow])

/-- Settles O16: the intermediate t is the number of the byte A - B (`toNat_sub_eq_subExact`), and each clause is
`calcGives_sub` at that byte. -/
theorem subResultAndFlags : Obligations.SubResultAndFlags := by
  refine ⟨fun _ _ => decode_wordOf (op := 0x05#8) rfl, fun a b t v ht hv => ?_, calcGives_sub_self,
    calcGives_sub (v := false) rfl rfl, calcGives_sub (v := false) rfl rfl, calcGives_sub (v := true) rfl rfl,
    calcGives_sub (v := true) rfl rfl, calcGives_sub (v := true) rfl rfl, calcGives_sub (v := true) rfl rfl⟩
  obtain rfl : t = (a - b).toNat := Int.ofNat_inj.mp (ht.trans (toNat_sub_eq_subExact a b).symm)
  refine ⟨?_, testBit_eight_toNat (a - b)⟩
  rw [testBit_eight_toNat, BitVec.ofNat_toNat, BitVec.setWidth_eq, ← zero_test_toNat (a - b)]
  exact calcGives_sub rfl hv.symm

/-- Settles O18: Y is the low byte of A + B (`calcGives_add`) and the byte A - B (`calcGives_sub`). -/
theorem sumAndDifferenceModulo256 : Obligations.SumAndDifferenceModulo256 :=
  fun a b s => ⟨⟨_, _, calcGives_add rfl rfl s, rfl, BitVec.toNat_ofNat ..⟩,
    ⟨_, _, calcGives_sub rfl rfl s, rfl, toNat_sub_eq_emod a b⟩⟩

/-! ### The signed views of the operands (R11) -/

theorem sval8_cases (v : Byte) : sval8 v = v.toNat ∨ sval8 v = (v.toNat : Int) - 256 := by
  rw [sval8]
  split
  · exact .inr rfl
  · exact .inl rfl

theorem sval8_range (v : Byte) : -128 ≤ sval8 v ∧ sval8 v ≤ 127 := by
  rw [sval8_eq_toInt]
  exact ⟨BitVec.le_toInt v, Int.le_of_lt_add_one BitVec.toInt_lt⟩

/-- ADD's V is signed overflow (R88). -/
theorem addOverflow_add (a b : Byte) : addOverflow a b (a + b) = outOfSignedByte (sval8 a + sval8 b) := by
  rw [sval8_eq_toInt, sval8_eq_toInt]
  calc addOverflow a b (a + b)
      = a.saddOverflow b := (BitVec.saddOverflow_eq a b).symm
    _ = outOfSignedByte (a.toInt + b.toInt) := Bool.or_comm ..

/-- SUB's V is signed overflow (R91). -/
theorem subOverflow_sub (a b : Byte) : subOverflow a b (a - b) = outOfSignedByte (sval8 a - sval8 b) := by
  have hbits (x y d : Bool) : (x != y && d == y) = (!x && y && d || x && !y && !d) := by
    cases x <;> cases y <;> cases d <;> rfl
  rw [sval8_eq_toInt, sval8_eq_toInt]
  calc subOverflow a b (a - b)
      = a.ssubOverflow b := (hbits ..).trans (BitVec.ssubOverflow_eq a b).symm
    _ = outOfSignedByte (a.toInt - b.toInt) := Bool.or_comm ..

/-! ### A byte and the exact signed result it stands for -/

/-- `y` is the exact result `d` of one addition or subtraction of signed bytes, modulo 256. -/
structure WrapsResult (y : Byte) (d : Int) : Prop where
  wraps : (y.toNat : Int) = d % 256
  lower : -256 ≤ d
  upper : d ≤ 255

theorem wrapsResult_add (a b : Byte) : WrapsResult (a + b) (sval8 a + sval8 b) := by
  have ha := sval8_range a
  have hb := sval8_range b
  refine ⟨?_, by omega, by omega⟩
  have ha' := sval8_cases a
  have hb' := sval8_cases b
  rw [BitVec.toNat_add]
  omega

theorem wrapsResult_sub (a b : Byte) : WrapsResult (a - b) (sval8 a - sval8 b) := by
  have ha := sval8_range a
  have hb := sval8_range b
  refine ⟨?_, by omega, by omega⟩
  have ha' := sval8_cases a
  have hb' := sval8_cases b
  rw [toNat_sub_eq_emod]
  omega

/-- N xor V is the sign of the exact result: bit 7 of Y is wrong exactly when the result overflows (R77). -/
theorem WrapsResult.signBit_xor_overflow {y : Byte} {d : Int} (h : WrapsResult y d) :
    (y.getLsbD 7 ^^ outOfSignedByte d) = decide (d < 0) := by
  obtain ⟨hwraps, hlower, hupper⟩ := h
  have hy := y.isLt
  have hN : y.getLsbD 7 = decide (128 ≤ y.toNat) := BitVec.msb_eq_decide y
  rw [hN, outOfSignedByte, Bool.eq_iff_iff]
  by_cases hneg : 128 ≤ y.toNat
  · simp only [hneg, decide_true, Bool.true_xor, Bool.not_eq_true', Bool.or_eq_false_iff, decide_eq_false_iff_not,
      decide_eq_true_iff]
    omega
  · simp only [hneg, decide_false, Bool.false_xor, Bool.or_eq_true, decide_eq_true_iff]
    omega

/-- With the sign of the exact result as S, the byte read through S is that result (R12, R93). -/
theorem WrapsResult.sval8S_srOf {y : Byte} {d : Int} (h : WrapsResult y d) (nF zF vF cF : Bool) :
    sval8S y (srOf (decide (d < 0)) nF zF vF cF) = d := by
  obtain ⟨hwraps, hlower, hupper⟩ := h
  obtain ⟨hS, -⟩ := srOf_fields (decide (d < 0)) nF zF vF cF
  have hy := y.isLt
  simp only [sval8S, hS, decide_eq_true_iff]
  split <;> omega

/-! ### The closed forms (R88, R91) -/

theorem toNat_add_toNat_beq_zero (a b : Byte) :
    (a.toNat + b.toNat == 0) = (decide (a = 0#8) && decide (b = 0#8)) := by
  rw [Bool.eq_iff_iff]
  simp [BitVec.toNat_eq]

/-- Y is 0 without both operands being 0 exactly when the sum is 256 (R75, R88; conflict C2). -/
theorem add_eq_zero_of_nonzero_iff (a b : Byte) :
    a + b = 0#8 ∧ ¬(a = 0#8 ∧ b = 0#8) ↔ a.toNat + b.toNat = 256 := by
  have ha := a.isLt
  have hb := b.isLt
  simp only [BitVec.toNat_eq, BitVec.toNat_add, BitVec.toNat_ofNat]
  omega

theorem calcGives_add_closed (a b : Byte) :
    CalcGives (.add a b) (a + b) (decide (sval8 a + sval8 b < 0)) ((a + b).getLsbD 7)
      (decide (a = 0#8) && decide (b = 0#8)) (outOfSignedByte (sval8 a + sval8 b))
      (decide (256 ≤ a.toNat + b.toNat)) := by
  have hN : (a.toNat + b.toNat).testBit 7 = (a + b).getLsbD 7 := by
    rw [BitVec.add_def, BitVec.getLsbD_ofNat]
    rfl
  have hV : (a.getLsbD 7 == b.getLsbD 7 && (a.toNat + b.toNat).testBit 7 != a.getLsbD 7) =
      outOfSignedByte (sval8 a + sval8 b) := hN ▸ addOverflow_add a b
  have hC : (a.toNat + b.toNat).testBit 8 = decide (256 ≤ a.toNat + b.toNat) := by
    have ha := a.isLt
    have hb := b.isLt
    rw [Bool.eq_iff_iff, decide_eq_true_iff]
    exact testBit_eight_iff (by omega)
  have hgives := calcGives_add rfl hV
  rwa [← BitVec.add_def, hN, (wrapsResult_add a b).signBit_xor_overflow, toNat_add_toNat_beq_zero, hC] at hgives

/-- Settles O19: the flags by `calcGives_add_closed`, the one exception of Z by `add_eq_zero_of_nonzero_iff`. -/
theorem addFlagsInClosedForm : Obligations.AddFlagsInClosedForm :=
  fun a b => ⟨calcGives_add_closed a b, add_eq_zero_of_nonzero_iff a b⟩

/-- Settles O20: `calcGives_sub` with V as signed overflow (`subOverflow_sub`), which makes S the sign of the difference. -/
theorem subFlagsInClosedForm : Obligations.SubFlagsInClosedForm := by
  intro a b
  have hZ : (a - b == 0#8) = decide (a = b) := by
    rw [Bool.eq_iff_iff, beq_iff_eq, decide_eq_true_iff]
    exact sub_eq_zero
  have hgives := calcGives_sub rfl (subOverflow_sub a b)
  rwa [(wrapsResult_sub a b).signBit_xor_overflow, hZ] at hgives

/-! ### What Y and SR tell of the exact result (R93, R94) -/

/-- When a CALC leaves bit 7 of Y in S, Y read through S is its own signed view (R11, R12). -/
theorem signedView_of_calcGives {i : Instr} {y : Byte} {nF zF vF cF : Bool}
    (h : CalcGives i y (y.getLsbD 7) nF zF vF cF) (s : State) :
    ∃ s' y, exec i s = .next s' ∧ s'.outputs = s.outputs ++ [.y y] ∧ sval8S y s'.sr = sval8 y := by
  obtain ⟨hS, -⟩ := srOf_fields (y.getLsbD 7) nF zF vF cF
  exact ⟨_, y, h s, rfl, by rw [sval8S, hS, sval8, bitRead]⟩

/-- Settles O21: S is the sign of the exact result after ADD and SUB (`WrapsResult.sval8S_srOf`), and bit 7 of Y after OR,
AND and XOR (`signedView_of_calcGives`). -/
theorem signedViewIsExact : Obligations.SignedViewIsExact := by
  intro a b s
  refine ⟨⟨_, _, calcGives_add_closed a b s, rfl, (wrapsResult_add a b).sval8S_srOf ..⟩,
    ⟨_, _, subFlagsInClosedForm a b s, rfl, (wrapsResult_sub a b).sval8S_srOf ..⟩, ?_⟩
  rintro i (rfl | rfl | rfl)
  · exact signedView_of_calcGives (calcGives_or rfl) s
  · exact signedView_of_calcGives (calcGives_and rfl) s
  · exact signedView_of_calcGives (calcGives_xor rfl) s

/-- Settles O22: 3 - 5 borrows and 255 - 1 does not, and both give Y = 0xFE with S and N alone set. -/
theorem subShowsNoUnsignedBorrow : Obligations.SubShowsNoUnsignedBorrow := by
  rintro ⟨f, hf⟩
  have hborrow : CalcGives (.sub 3#8 5#8) 0xFE#8 true true false false false := calcGives_sub (v := false) rfl rfl
  have hnoBorrow : CalcGives (.sub 255#8 1#8) 0xFE#8 true true false false false := calcGives_sub (v := false) rfl rfl
  have htrue := hf 3#8 5#8 State.reset _ 0xFE#8 (hborrow _) rfl
  have hfalse := hf 255#8 1#8 State.reset _ 0xFE#8 (hnoBorrow _) rfl
  exact absurd (htrue.symm.trans hfalse) (by decide)

end Sys2Proof.Machine
end

section
/-! The source's domain (R95): a command word of the domain decodes to an instruction that fits the port REG, so its
transaction completes and raises nothing. -/

namespace Sys2Proof

/-! ### What the words of the domain decode to (R51 to R54) -/

/-- A word with a legal OP decodes to a CALC: `decodeCalc` rejects it only when OP fails the tests of all five codes. -/
theorem decodeCalc_of_legal {m : OpcodeMap} {w : BitVec 24} (h : m.legal (opField w) = true) :
    ∃ i, decodeCalc m w = .ok i ∧ i.isCalc = true := by
  rw [OpcodeMap.legal_iff_mem] at h
  fun_cases decodeCalc m w with
  | case1 => exact ⟨_, rfl, rfl⟩
  | case2 => exact ⟨_, rfl, rfl⟩
  | case3 => exact ⟨_, rfl, rfl⟩
  | case4 => exact ⟨_, rfl, rfl⟩
  | case5 => exact ⟨_, rfl, rfl⟩
  | case6 hor hand hxor hadd hsub => exact absurd h (notMem_five_iff.mpr ⟨hor, hand, hxor, hadd, hsub⟩)

/-- A word whose BFOP is not the reserved 3 decodes to a bit-field operation on its IDX. -/
theorem decodeBf_of_bfop_le_two {w : BitVec 10} (h : (bfopField w).toNat ≤ 2) :
    ∃ i, decodeBf w = .ok i ∧ i.index = some (idxField w) := by
  fun_cases decodeBf w with
  | case1 => exact ⟨_, rfl, rfl⟩
  | case2 => exact ⟨_, rfl, rfl⟩
  | case3 => exact ⟨_, rfl, rfl⟩
  | case4 hset hclear hread =>
    simp only [BitVec.toNat_eq, BitVec.toNat_ofNat] at hset hclear hread
    omega

theorem fits_of_isCalc {i : Instr} (hi : i.isCalc = true) (w : Nat) : i.fits w = true := by
  cases i with
  | or a b => rfl
  | and a b => rfl
  | xor a b => rfl
  | add a b => rfl
  | sub a b => rfl
  | set idx => cases hi
  | clear idx => cases hi
  | read idx => cases hi

end Sys2Proof

namespace Sys2Proof.Machine

/-! ### Completion (R36, R95) -/

/-- The answer `a` completes a transaction performed on `s`: no fault is marked, one output is delivered, and what is
still to be performed stays. -/
def Completes (s : State) (a : Answer) : Prop :=
  ∃ s' o, a = .next s' ∧ s'.faultMark = none ∧ s'.pending = s.pending ∧ s'.outputs = s.outputs ++ [o]

section
variable {s : State} (hmark : s.faultMark = none)
include hmark

/-- An instruction that fits the port REG completes: a CALC always delivers Y, and a bit-field operation faults only when
its index is out of range (R64, R69). -/
theorem exec_completes_of_fits {i : Instr} (hfits : i.fits s.regPort.width = true) : Completes s (exec i s) := by
  cases hcalc : i.isCalc with
  | true =>
    obtain ⟨t, v, hexec⟩ := exec_of_isCalc hcalc
    exact ⟨_, _, (hexec s).trans (finishCalc_eq t v s), hmark, rfl, rfl⟩
  | false =>
    obtain ⟨idx, hi⟩ := index_of_not_isCalc hcalc
    rw [fits_of_index hi, decide_eq_true_iff] at hfits
    obtain ⟨b, -, hgives⟩ | ⟨q, -, hgives⟩ := bitField_gives_of_inRange hi hfits
    · exact ⟨_, _, hgives s rfl, hmark, rfl, rfl⟩
    · exact ⟨_, _, hgives s rfl, hmark, rfl, rfl⟩

theorem runCommand_completes_of_fits {m : OpcodeMap} {w : CommandWord} {i : Instr} (hd : decodeWith m w = .ok i)
    (hfits : i.fits s.regPort.width = true) : Completes s (runCommand m w s) := by
  rw [runCommand_of_ok hd]
  exact exec_completes_of_fits hmark hfits

/-- A transaction in the domain of the map completes: its word decodes to an instruction that fits, and the host's own
accesses raise nothing (R95, R102). -/
theorem transact_completes_of_inDomainWith {m : OpcodeMap} {t : Transaction} (ht : t.inDomainWith m = true) :
    Completes s (transact m t s) := by
  cases t with
  | calculate w =>
    obtain ⟨i, hd, hcalc⟩ := decodeCalc_of_legal ht
    exact runCommand_completes_of_fits (w := .calc24 w) hmark hd (fits_of_isCalc hcalc _)
  | bitField w r =>
    simp only [Transaction.inDomainWith, Bool.and_eq_true, decide_eq_true_iff] at ht
    obtain ⟨hbfop, hidx⟩ := ht
    obtain ⟨i, hd, hi⟩ := decodeBf_of_bfop_le_two hbfop
    have hfits : i.fits r.width = true := (fits_of_index hi _).trans (decide_eq_true hidx)
    exact runCommand_completes_of_fits (w := .bf10 w) (s := s.presentReg r) hmark hd hfits
  | readSR => exact ⟨_, _, rfl, hmark, rfl, rfl⟩
  | writeSR v => exact ⟨_, _, rfl, hmark, rfl, rfl⟩
  | reset => exact ⟨_, _, rfl, rfl, rfl, rfl⟩

theorem stepWith_completes_of_inDomainWith {m : OpcodeMap} {t : Transaction} {rest : List Transaction}
    (hp : s.pending = t :: rest) (ht : t.inDomainWith m = true) : Completes (s.withPending rest) (stepWith m s) := by
  rw [stepWith_of_pending m hmark hp]
  exact transact_completes_of_inDomainWith (s := s.withPending rest) hmark ht

end

/-- Settles O10: `stepWith_completes_of_inDomainWith` under the default map. -/
theorem inDomainTransactionCompletes : Obligations.InDomainTransactionCompletes :=
  fun _ _ _ hmark hp ht => stepWith_completes_of_inDomainWith hmark hp ht

end Sys2Proof.Machine
end

section
/-! A host read right after a CALC (R114): the read's step starts from the SR that the CALC's step left. -/

namespace Sys2Proof

/-- No CALC word decodes to a bit-field operation (R49, R54). -/
theorem isCalc_of_decodeCalc {m : OpcodeMap} {w : BitVec 24} {i : Instr} (h : decodeCalc m w = .ok i) :
    i.isCalc = true := by
  revert h
  fun_cases decodeCalc m w with
  | case1 => rintro ⟨⟩; rfl
  | case2 => rintro ⟨⟩; rfl
  | case3 => rintro ⟨⟩; rfl
  | case4 => rintro ⟨⟩; rfl
  | case5 => rintro ⟨⟩; rfl
  | case6 => rintro ⟨⟩

end Sys2Proof

namespace Sys2Proof.Machine

/-- Settles O40: the word decodes to a CALC (`isCalc_of_decodeCalc`), whose Y and SR are the same from every state
(`calcIsATotalFunctionOfItsOperands`); the two transactions are performed one after the other. -/
theorem hostReadAfterACalcSeesItsFlags : Obligations.HostReadAfterACalcSeesItsFlags := by
  intro s w i rest hmark hpending hd
  obtain ⟨y, sF, nF, zF, vF, cF, hgives, hreserved⟩ :=
    calcIsATotalFunctionOfItsOperands i (isCalc_of_decodeCalc hd)
  have hcalc (q : State) :
      transact opcodeMap (.calculate w) q = .next ((q.writeSR (srOf sF nF zF vF cF)).deliver (.y y)) :=
    (runCommand_of_ok hd q).trans (hgives q)
  refine ⟨_, y, hgives s, hreserved, ?_⟩
  calc core.run 2 s
      = core.run 1 (((s.withPending (.readSR :: rest)).writeSR (srOf sF nF zF vF cF)).deliver (.y y)) :=
        core_run_succ_of_pending hmark hpending (hcalc _)
    _ = core.run 0 ((((s.withPending rest).writeSR (srOf sF nF zF vF cF)).deliver (.y y)).deliver
          (.srValue (srOf sF nF zF vF cF))) := core_run_succ_of_pending hmark rfl rfl
    _ = .next { s with
          sr := srOf sF nF zF vF cF, pending := rest,
          outputs := s.outputs ++ [.y y, .srValue (srOf sF nF zF vF cF)] } :=
        congrArg Host.Outcome.next (State.eq_of_fields rfl rfl rfl rfl (by simp))

end Sys2Proof.Machine
end

section
/-! The encoding (R48 to R54): the decoder undoes the encoder, a word has one meaning, and the words that have none are
rejected under the name of the field that has no meaning. -/

namespace Sys2Proof

/-- Settles O32: `decodeWith_encodeWith`. -/
theorem decodeOfEncodeIsTheInstruction : Obligations.DecodeOfEncodeIsTheInstruction :=
  fun _ hm i => decodeWith_encodeWith hm i

/-! ### A word that decodes is an encoding (R54) -/

theorem encodeWith_of_decodeCalc {m : OpcodeMap} {w : BitVec 24} {i : Instr} (h : decodeCalc m w = .ok i) :
    encodeWith m i = .calc24 w := by
  have hfields : CommandWord.calc24 (calcWord (opField w) (aField w) (bField w)) = .calc24 w := by
    rw [calcWord_fields]
  revert h
  fun_cases decodeCalc m w with
  | case1 hop => rintro ⟨⟩; rwa [hop] at hfields
  | case2 _ hop => rintro ⟨⟩; rwa [hop] at hfields
  | case3 _ _ hop => rintro ⟨⟩; rwa [hop] at hfields
  | case4 _ _ _ hop => rintro ⟨⟩; rwa [hop] at hfields
  | case5 _ _ _ _ hop => rintro ⟨⟩; rwa [hop] at hfields
  | case6 => rintro ⟨⟩

theorem encodeWith_of_decodeBf {w : BitVec 10} {i : Instr} (h : decodeBf w = .ok i) (m : OpcodeMap) :
    encodeWith m i = .bf10 w := by
  have hfields : CommandWord.bf10 (bfWord (bfopField w) (idxField w)) = .bf10 w := by
    rw [bfWord_fields]
  revert h
  fun_cases decodeBf w with
  | case1 hbfop => rintro ⟨⟩; rwa [hbfop] at hfields
  | case2 _ hbfop => rintro ⟨⟩; rwa [hbfop] at hfields
  | case3 _ _ hbfop => rintro ⟨⟩; rwa [hbfop] at hfields
  | case4 => rintro ⟨⟩

/-- Settles O33: in either format the word is the packing of its fields, and its selecting field is the code of the
instruction (`encodeWith_of_decodeCalc`, `encodeWith_of_decodeBf`). -/
theorem decodedWordIsTheEncoding : Obligations.DecodedWordIsTheEncoding := by
  intro m w i h
  cases w with
  | calc24 w => exact encodeWith_of_decodeCalc h
  | bf10 w => exact encodeWith_of_decodeBf h m

/-! ### The rejected words (R51, R53) -/

theorem decodeCalc_of_not_legal {m : OpcodeMap} {w : BitVec 24} (h : m.legal (opField w) = false) :
    decodeCalc m w = .error (.undefinedOperation (opField w)) := by
  obtain ⟨hor, hand, hxor, hadd, hsub⟩ := notMem_five_iff.mp (OpcodeMap.legal_eq_false_iff_notMem.mp h)
  rw [decodeCalc, if_neg hor, if_neg hand, if_neg hxor, if_neg hadd, if_neg hsub]

theorem decodeBf_of_reserved {w : BitVec 10} (h : bfopField w = 3#2) : decodeBf w = .error (.undefinedBitOp 3#2) := by
  rw [decodeBf, h]
  rfl

/-- A CALC word decodes exactly when its OP is one of the map's five codes (R51). -/
theorem decodeCalc_ok_iff_legal {m : OpcodeMap} {w : BitVec 24} :
    (∃ i, decodeCalc m w = .ok i) ↔ m.legal (opField w) = true := by
  refine ⟨?_, fun h => ?_⟩
  · rintro ⟨i, hi⟩
    by_contra hop
    cases (decodeCalc_of_not_legal (Bool.eq_false_of_not_eq_true hop)).symm.trans hi
  · obtain ⟨i, hi, -⟩ := decodeCalc_of_legal h
    exact ⟨i, hi⟩

/-- BFOP has two bits, so the only value above 2 is the reserved 3 (R53). -/
theorem bfop_eq_three_of_not_le_two {bfop : BitVec 2} (h : ¬bfop.toNat ≤ 2) : bfop = 3#2 := by
  have hlt := bfop.isLt
  rw [BitVec.toNat_eq, BitVec.toNat_ofNat]
  omega

theorem decodeBf_ok_iff_bfop_le_two {w : BitVec 10} : (∃ i, decodeBf w = .ok i) ↔ (bfopField w).toNat ≤ 2 := by
  refine ⟨?_, fun h => ?_⟩
  · rintro ⟨i, hi⟩
    by_contra hbfop
    cases (decodeBf_of_reserved (bfop_eq_three_of_not_le_two hbfop)).symm.trans hi
  · obtain ⟨i, hi, -⟩ := decodeBf_of_bfop_le_two h
    exact ⟨i, hi⟩

/-- The default map's five codes are 1 to 5 (R48). -/
theorem opcodeMap_legal_iff {op : Byte} : opcodeMap.legal op = true ↔ 1 ≤ op.toNat ∧ op.toNat ≤ 5 := by
  simp only [OpcodeMap.legal_iff_mem, List.mem_cons, List.not_mem_nil, or_false, opcodeMap, BitVec.toNat_eq,
    BitVec.toNat_ofNat]
  omega

theorem opcodeMap_not_legal {op : Byte} (h : op.toNat = 0 ∨ 5 < op.toNat) : opcodeMap.legal op = false := by
  rw [← Bool.not_eq_true, opcodeMap_legal_iff]
  omega

/-- Settles O34: OP and BFOP are quotients of the word's number (`opField_toNat`, `bfopField_toNat`), and a word decodes
exactly when its OP is legal (`decodeCalc_ok_iff_legal`) or its BFOP at most 2 (`decodeBf_ok_iff_bfop_le_two`). -/
theorem exactlyTheUndefinedCodesAreRejected : Obligations.ExactlyTheUndefinedCodesAreRejected := by
  refine ⟨fun w => ?_, fun w => ?_⟩
  · rw [← opField_toNat, BitVec.ofNat_toNat, BitVec.setWidth_eq]
    exact ⟨decodeCalc_ok_iff_legal.trans opcodeMap_legal_iff, fun h => decodeCalc_of_not_legal (opcodeMap_not_legal h)⟩
  · rw [← bfopField_toNat]
    exact ⟨decodeBf_ok_iff_bfop_le_two, fun h => decodeBf_of_reserved (BitVec.eq_of_toNat_eq h)⟩

/-- Settles O35: a decoded example is the encoding of its instruction, packed from its fields. -/
theorem exampleWordsDecode : Obligations.ExampleWordsDecode := by
  have hencoded (i : Instr) : decode (encode i) = .ok i := decodeWith_encodeWith (by decide) i
  have hrejected (w : BitVec 24) (h : opcodeMap.legal (opField w) = false) :
      decode (.calc24 w) = .error (.undefinedOperation (opField w)) := decodeCalc_of_not_legal h
  exact ⟨hencoded (.add 100#8 50#8), hencoded (.sub 156#8 50#8), hencoded (.and 0x24#8 0x20#8),
    hencoded (.or 0x20#8 0x01#8), hencoded (.xor 0xFF#8 0x0F#8), hencoded (.set 3#8), hencoded (.clear 7#8),
    hencoded (.read 8#8), hrejected 0x000102#24 rfl, hrejected 0x060000#24 rfl, decodeBf_of_reserved (w := 0x3FF#10) rfl⟩

end Sys2Proof
end

section
/-! SR after a CALC (R83 to R91) and the law of its flags (R20, R24, R75): a CALC leaves one of eight values, each of them
lawful, and every step keeps a lawful SR lawful unless the host writes another value. -/

namespace Sys2Proof.Machine

open Sys2Proof.Claim

/-! ### The eight values -/

/-- What SR can be after a CALC. -/
def calcStatusValues : List Byte := [0x00#8, 0x01#8, 0x04#8, 0x0A#8, 0x12#8, 0x13#8, 0x18#8, 0x19#8]

/-- With S = N xor V, the eight values are those in which Z excludes every other flag, and N and V together exclude C. -/
theorem srOf_mem_calcStatusValues {n z v c : Bool} (hz : z = true → n = false ∧ v = false ∧ c = false)
    (hc : n = true → v = true → c = false) : srOf (n ^^ v) n z v c ∈ calcStatusValues := by
  revert n z v c
  decide

theorem logical_sr_mem (y : Byte) :
    srOf (y.getLsbD 7) (y.getLsbD 7) (y == 0#8) false false ∈ calcStatusValues := by
  have hN (hz : (y == 0#8) = true) : y.getLsbD 7 = false := by
    obtain rfl : y = 0#8 := beq_iff_eq.mp hz
    rfl
  simpa using srOf_mem_calcStatusValues (v := false) (c := false) (fun hz => ⟨hN hz, rfl, rfl⟩) fun _ _ => rfl

/-- ADD: a zero sum has zero operands, and with N and V both operands lie below 128, so that there is no carry. -/
theorem add_sr_mem (a b : Byte) (s : State) : ∃ s', exec (.add a b) s = .next s' ∧ s'.sr ∈ calcStatusValues := by
  refine ⟨_, calcGives_add rfl rfl s, srOf_mem_calcStatusValues (fun hz => ?_) fun hn hv => ?_⟩
  · rw [beq_iff_eq] at hz
    obtain rfl : a = 0#8 := BitVec.eq_of_toNat_eq (by rw [BitVec.toNat_ofNat]; omega)
    obtain rfl : b = 0#8 := BitVec.eq_of_toNat_eq (by rw [BitVec.toNat_ofNat]; omega)
    decide
  · have hbits : ∀ x y : Bool, (x == y && true != x) = true → x = false ∧ y = false := by decide
    rw [hn] at hv
    obtain ⟨ha, hb⟩ := hbits _ _ hv
    have hsmall (x : Byte) (hx : x.getLsbD 7 = false) : x.toNat < 128 := by
      have hsign : x.getLsbD 7 = decide (128 ≤ x.toNat) := BitVec.msb_eq_decide x
      exact Nat.lt_of_not_le (of_decide_eq_false (hsign.symm.trans hx))
    have ha' := hsmall a ha
    have hb' := hsmall b hb
    exact Nat.testBit_lt_two_pow (by omega)

/-- SUB: a zero difference has equal operands, which cannot overflow, and C is 0 always (R91). -/
theorem sub_sr_mem (a b : Byte) (s : State) : ∃ s', exec (.sub a b) s = .next s' ∧ s'.sr ∈ calcStatusValues := by
  refine ⟨_, calcGives_sub rfl rfl s, srOf_mem_calcStatusValues (fun hz => ?_) fun _ _ => rfl⟩
  obtain rfl : a = b := sub_eq_zero.mp (beq_iff_eq.mp hz)
  simp [subOverflow]

theorem exec_sr_mem_of_isCalc {i : Instr} (hi : i.isCalc = true) (s : State) :
    ∃ s', exec i s = .next s' ∧ s'.sr ∈ calcStatusValues := by
  cases i with
  | or a b => exact ⟨_, calcGives_or rfl s, logical_sr_mem (a ||| b)⟩
  | and a b => exact ⟨_, calcGives_and rfl s, logical_sr_mem (a &&& b)⟩
  | xor a b => exact ⟨_, calcGives_xor rfl s, logical_sr_mem (a ^^^ b)⟩
  | add a b => exact add_sr_mem a b s
  | sub a b => exact sub_sr_mem a b s
  | set idx => cases hi
  | clear idx => cases hi
  | read idx => cases hi

/-- Each of the eight values is the SR of a corner case or example of 43_arithmetic.md or 42_logical.md. -/
theorem exists_calc_of_mem_calcStatusValues {v : Byte} (hv : v ∈ calcStatusValues) :
    ∃ i y sF nF zF vF cF, i.isCalc = true ∧ CalcGives i y sF nF zF vF cF ∧ srOf sF nF zF vF cF = v := by
  simp only [calcStatusValues, List.mem_cons, List.not_mem_nil, or_false] at hv
  obtain rfl | rfl | rfl | rfl | rfl | rfl | rfl | rfl := hv
  · exact ⟨.or 0x20#8 0x01#8, _, _, _, _, _, _, rfl, calcGives_or rfl, by decide⟩
  · exact ⟨.add 1#8 255#8, _, _, _, _, _, _, rfl, calcGives_add rfl rfl, by decide⟩
  · exact ⟨.or 0#8 0#8, _, _, _, _, _, _, rfl, calcGives_or rfl, by decide⟩
  · exact ⟨.add 127#8 1#8, _, _, _, _, _, _, rfl, calcGives_add rfl rfl, by decide⟩
  · exact ⟨.sub 0x80#8 0x01#8, _, _, _, _, _, _, rfl, calcGives_sub rfl rfl, by decide⟩
  · exact ⟨.add 128#8 128#8, _, _, _, _, _, _, rfl, calcGives_add rfl rfl, by decide⟩
  · exact ⟨.sub 3#8 5#8, _, _, _, _, _, _, rfl, calcGives_sub rfl rfl, by decide⟩
  · exact ⟨.add 255#8 255#8, _, _, _, _, _, _, rfl, calcGives_add rfl rfl, by decide⟩

/-- Settles O25: `exec_sr_mem_of_isCalc` bounds what a CALC leaves, and `exists_calc_of_mem_calcStatusValues` attains it. -/
theorem eightStatusValuesAfterACalc : Obligations.EightStatusValuesAfterACalc := by
  refine ⟨fun i s s' hi hexec => ?_, fun v hv => ?_⟩
  · obtain ⟨q, hq, hmem⟩ := exec_sr_mem_of_isCalc hi s
    cases hq.symm.trans hexec
    exact hmem
  · obtain ⟨i, y, sF, nF, zF, vF, cF, hi, hgives, hsr⟩ := exists_calc_of_mem_calcStatusValues hv
    exact ⟨i, hi, fun s => ⟨_, hgives s, hsr⟩⟩

/-! ### The law of the flags -/

theorem flagsLawful_of_mem_calcStatusValues : ∀ v ∈ calcStatusValues, flagsLawful v = true := by decide

theorem State.flagInv_iff {s : State} :
    s.flagInv = true ↔ flagsLawful s.sr = true ∧ ∀ t ∈ s.pending, t.keepsFlagLaw = true := by
  rw [State.flagInv, Bool.and_eq_true, List.all_eq_true]

/-- A transaction issues nothing and takes nothing more. -/
theorem transact_pending {m : OpcodeMap} {t : Transaction} {s s' : State} (h : transact m t s = .next s') :
    s'.pending = s.pending := by
  obtain ⟨q, hq⟩ := transact_withPending m t s
  cases (hq s.pending).symm.trans h
  rfl

/-- SR stays lawful: a CALC leaves one of the eight values, a host write one that the invariant allows, a reset 0x00, and
nothing else changes SR (`transact_changes_sr`). -/
theorem transact_keeps_flagsLawful {m : OpcodeMap} {t : Transaction} {s s' : State} (h : transact m t s = .next s')
    (ht : t.keepsFlagLaw = true) (hs : flagsLawful s.sr = true) : flagsLawful s'.sr = true := by
  by_cases hsr : s'.sr = s.sr
  · rwa [hsr]
  · obtain ⟨w, i, rfl, hd, hi⟩ | ⟨v, rfl⟩ | rfl := transact_changes_sr h hsr
    · obtain ⟨q, hq, hmem⟩ := exec_sr_mem_of_isCalc hi s
      cases hq.symm.trans ((runCommand_of_ok hd s).symm.trans h)
      exact flagsLawful_of_mem_calcStatusValues _ hmem
    · cases h
      exact ht
    · cases h
      exact flagsLawful_of_mem_calcStatusValues 0x00#8 (by decide)

theorem stepWith_keeps_flagInv {m : OpcodeMap} {s s' : State} (hs : s.flagInv = true) (h : stepWith m s = .next s') :
    s'.flagInv = true := by
  obtain ⟨-, t, rest, hpending, htransact⟩ := stepWith_next_inv h
  obtain ⟨hlaw, hissued⟩ := State.flagInv_iff.mp hs
  rw [hpending, List.forall_mem_cons] at hissued
  obtain ⟨ht, hrest⟩ := hissued
  refine State.flagInv_iff.mpr ⟨transact_keeps_flagsLawful htransact ht hlaw, ?_⟩
  rwa [transact_pending htransact]

/-- Settles O57: `stepWith_keeps_flagInv`. -/
theorem everyStepKeepsTheFlagLawUnderEveryMap : Obligations.EveryStepKeepsTheFlagLawUnderEveryMap :=
  fun _ _ _ hs h => stepWith_keeps_flagInv hs h

/-- Settles O37: `stepWith_keeps_flagInv` under the default map. -/
theorem everyStepKeepsTheFlagLaw : Obligations.EveryStepKeepsTheFlagLaw :=
  fun _ _ hs h => stepWith_keeps_flagInv hs h

/-- Settles O38: 0x00 is lawful, and nothing is issued at reset. -/
theorem resetMeetsTheFlagLaw : Obligations.ResetMeetsTheFlagLaw :=
  State.flagInv_iff.mpr ⟨flagsLawful_of_mem_calcStatusValues 0x00#8 (by decide), fun _ ht => nomatch ht⟩

end Sys2Proof.Machine
end

section
/-! The step (R14, R40, R97): the oldest issued transaction of an unfaulted instance is performed, a command as the
instruction its word decodes to, and a word or an index outside the domain marks a fault and writes nothing else. -/

namespace Sys2Proof.Machine

/-! ### A command word as the oldest transaction -/

section
variable {m : OpcodeMap} {s : State} {rest : List Transaction} (hmark : s.faultMark = none)
include hmark

theorem stepWith_calculate_of_ok {w : BitVec 24} {i : Instr} (hp : s.pending = .calculate w :: rest)
    (hd : decodeWith m (.calc24 w) = .ok i) : stepWith m s = exec i { s with pending := rest } :=
  (stepWith_of_pending m hmark hp).trans (runCommand_of_ok hd _)

theorem stepWith_bitField_of_ok {w : BitVec 10} {r : RegValue} {i : Instr} (hp : s.pending = .bitField w r :: rest)
    (hd : decodeWith m (.bf10 w) = .ok i) : stepWith m s = exec i { s with pending := rest, regPort := r } :=
  (stepWith_of_pending m hmark hp).trans (runCommand_of_ok hd _)

theorem stepWith_calculate_of_not_legal {w : BitVec 24} (hp : s.pending = .calculate w :: rest)
    (hop : m.legal (opField w) = false) :
    stepWith m s = .next { s with pending := rest, faultMark := some (.undefinedOperation (opField w)) } :=
  (stepWith_of_pending m hmark hp).trans (runCommand_of_error (w := .calc24 w) (decodeCalc_of_not_legal hop) _)

theorem stepWith_bitField_of_reserved {w : BitVec 10} {r : RegValue} (hp : s.pending = .bitField w r :: rest)
    (hbfop : bfopField w = 3#2) :
    stepWith m s = .next { s with pending := rest, regPort := r, faultMark := some (.undefinedBitOp 3#2) } :=
  (stepWith_of_pending m hmark hp).trans (runCommand_of_error (w := .bf10 w) (decodeBf_of_reserved hbfop) _)

end

/-- Settles O1: `stepWith_calculate_of_ok` and `stepWith_bitField_of_ok` under the default map. -/
theorem stepRunsTheDecodedCommand : Obligations.StepRunsTheDecodedCommand :=
  fun _ _ _ hmark => ⟨fun _ => stepWith_calculate_of_ok hmark, fun _ _ => stepWith_bitField_of_ok hmark⟩

/-- Settles O54: the four `stepWith_` rules above; a code that is none of the five is not legal. -/
theorem stepRunsTheDecodedCommandUnderEveryMap : Obligations.StepRunsTheDecodedCommandUnderEveryMap :=
  ⟨step_eq, rfl, fun _ _ _ hmark =>
    ⟨fun _ _ => stepWith_calculate_of_ok hmark, fun _ _ _ => stepWith_bitField_of_ok hmark,
      fun _ hp hop => stepWith_calculate_of_not_legal hmark hp (OpcodeMap.legal_eq_false_iff_notMem.mpr hop),
      fun _ _ => stepWith_bitField_of_reserved hmark⟩⟩

/-! ### A placed word of the opcode table -/

theorem decodeTableWord_eq_some {nbits w : Nat} {i : Instr} (h : decodeTableWord nbits w = some i) :
    ∃ c, tableCommand nbits w = some c ∧ decode c = .ok i := by
  unfold decodeTableWord at h
  split at h
  · cases h
  · rename_i c hc
    split at h
    · rename_i j hj
      cases h
      exact ⟨c, hc, hj⟩
    · cases h

theorem withFetchWord_of_calc24 {nbits w : Nat} {c : BitVec 24} (h : tableCommand nbits w = some (.calc24 c))
    (s : State) : s.withFetchWord nbits w = { s with faultMark := none, pending := .calculate c :: s.pending } := by
  simp only [State.withFetchWord, presentTableWord, tableTransaction, h]

theorem withFetchWord_of_bf10 {nbits w : Nat} {c : BitVec 10} (h : tableCommand nbits w = some (.bf10 c))
    (s : State) :
    s.withFetchWord nbits w = { s with faultMark := none, pending := .bitField c s.regPort :: s.pending } := by
  simp only [State.withFetchWord, presentTableWord, tableTransaction, h]

/-- Settles O2: the word is placed as the oldest transaction of an unfaulted state, a bit-field word with the value that
already stands on the port, and the step runs what it decodes to. -/
theorem placedTableWordIsRunNext : Obligations.PlacedTableWordIsRunNext := by
  intro s nbits w i h
  obtain ⟨c, hc, hd⟩ := decodeTableWord_eq_some h
  cases c with
  | calc24 c =>
    rw [withFetchWord_of_calc24 hc]
    exact stepWith_calculate_of_ok rfl rfl hd
  | bf10 c =>
    rw [withFetchWord_of_bf10 hc]
    exact stepWith_bitField_of_ok rfl rfl hd

/-! ### The host's accesses, reset, and the end of a run -/

/-- Settles O3: the step performs the access (`stepWith_of_pending`), whose effect is its definition; the mark that a reset
clears is none already. -/
theorem hostAccessesOfSR : Obligations.HostAccessesOfSR :=
  fun _ _ hmark => ⟨stepWith_of_pending opcodeMap hmark, fun _ => stepWith_of_pending opcodeMap hmark,
    fun hp => (stepWith_of_pending opcodeMap hmark hp).trans
      (congrArg Host.Outcome.next (State.eq_of_fields rfl hmark.symm rfl rfl rfl))⟩

/-- Settles O4: the values are those of `State.reset`. -/
theorem resetStateIsClear : Obligations.ResetStateIsClear :=
  ⟨rfl, State.reset_sr, State.reset_faultMark, by decide, by decide⟩

/-- Settles O5: `stepWith_of_idle`. -/
theorem stepAfterTheLastTransactionIsRefused : Obligations.StepAfterTheLastTransactionIsRefused :=
  fun _ => stepWith_of_idle opcodeMap

/-! ### Faults -/

/-- Settles O6: the word's OP (`wordOf_toNat`) is not legal (`opcodeMap_not_legal`). -/
theorem undefinedOperationRaises : Obligations.UndefinedOperationRaises := by
  intro s rest op a b w hmark hp hw hop
  obtain rfl : w = calcWord op a b := by simpa [wordOf_toNat] using hw
  have hlegal : opcodeMap.legal (opField (calcWord op a b)) = false := by
    rw [opField_calcWord]
    exact opcodeMap_not_legal hop
  have hstep := stepWith_calculate_of_not_legal hmark hp hlegal
  rwa [opField_calcWord] at hstep

/-- Settles O7: decoding comes before the index check, so `stepWith_bitField_of_reserved` says nothing of IDX and W. -/
theorem reservedBitOpRaisesFirst : Obligations.ReservedBitOpRaisesFirst := by
  intro s rest w r idx hmark hp hw
  obtain rfl : w = bfWord 3#2 idx := CommandWord.bf10.inj (hw.trans (bfWordOf_toNat 3#2 idx))
  exact stepWith_bitField_of_reserved hmark hp (bfopField_bfWord 3#2 idx)

/-- Settles O8: `bitFieldRaises_of_index`. -/
theorem bitIndexOutOfRangeRaises : Obligations.BitIndexOutOfRangeRaises :=
  fun _ _ _ hi hidx => bitFieldRaises_of_index hi hidx

/-- No run of at least one step leaves a faulted state (R97). -/
theorem run_of_faulted (m : OpcodeMap) {s : State} {f : Fault} (h : s.faultMark = some f) (n : Nat) :
    (coreWith m).run (n + 1) s = .fault f :=
  run_succ_of_fault (M := coreWith m) (stepWith_of_faulted m h) n

/-- Settles O9: `stepWith_of_faulted` and `run_of_faulted`. -/
theorem faultedStateIsFinal : Obligations.FaultedStateIsFinal :=
  fun _ _ h => ⟨stepWith_of_faulted opcodeMap h, run_of_faulted opcodeMap h⟩

/-! ### Outside the domain (R95, R97) -/

/-- The answer `a` records a fault of a transaction performed on `s`: the mark is set, nothing is delivered, no SR bit is
written, and what is still to be performed stays. -/
def MarksFault (s : State) (a : Answer) : Prop :=
  ∃ s' f, a = .next s' ∧ s'.faultMark = some f ∧ s'.pending = s.pending ∧ s'.outputs = s.outputs ∧ s'.sr = s.sr

theorem markFault_marksFault (s : State) (f : Fault) : MarksFault s (.next (s.markFault f)) :=
  ⟨_, f, rfl, rfl, rfl, rfl, rfl⟩

/-- A bit-field word is outside the domain when its BFOP is reserved, and else when its index is not below W (R95). -/
theorem runCommand_bf10_marksFault {m : OpcodeMap} {w : BitVec 10} {s : State}
    (h : ¬((bfopField w).toNat ≤ 2 ∧ (idxField w).toNat < s.regPort.width)) :
    MarksFault s (runCommand m (.bf10 w) s) := by
  by_cases hbfop : (bfopField w).toNat ≤ 2
  · obtain ⟨i, hd, hi⟩ := decodeBf_of_bfop_le_two hbfop
    have hidx : s.regPort.width ≤ (idxField w).toNat := Nat.le_of_not_lt fun hlt => h ⟨hbfop, hlt⟩
    rw [runCommand_of_ok (w := .bf10 w) hd, exec_outOfRange hi hidx]
    exact markFault_marksFault s _
  · rw [runCommand_of_error (w := .bf10 w) (decodeBf_of_reserved (bfop_eq_three_of_not_le_two hbfop))]
    exact markFault_marksFault s _

theorem transact_marksFault_of_not_inDomainWith {m : OpcodeMap} {t : Transaction} (ht : t.inDomainWith m = false)
    (s : State) : MarksFault s (transact m t s) := by
  cases t with
  | calculate w =>
    have hd : decodeWith m (.calc24 w) = .error (.undefinedOperation (opField w)) := decodeCalc_of_not_legal ht
    rw [transact, runCommand_of_error hd]
    exact markFault_marksFault s _
  | bitField w r =>
    have hout : ¬((bfopField w).toNat ≤ 2 ∧ (idxField w).toNat < r.width) := by
      simpa [Transaction.inDomainWith] using ht
    exact runCommand_bf10_marksFault (s := s.presentReg r) hout
  | readSR => cases ht
  | writeSR v => cases ht
  | reset => cases ht

theorem stepWith_marksFault_of_not_inDomainWith {m : OpcodeMap} {s : State} {t : Transaction}
    {rest : List Transaction} (hmark : s.faultMark = none) (hp : s.pending = t :: rest)
    (ht : t.inDomainWith m = false) : MarksFault (s.withPending rest) (stepWith m s) := by
  rw [stepWith_of_pending m hmark hp]
  exact transact_marksFault_of_not_inDomainWith ht (s.withPending rest)

/-- Settles O11: the transaction taken completes in the domain (`stepWith_completes_of_inDomainWith`) and marks a fault
outside it (`stepWith_marksFault_of_not_inDomainWith`). -/
theorem everyStepCompletesOrMarksAFault : Obligations.EveryStepCompletesOrMarksAFault := by
  intro s s' hstep
  obtain ⟨hmark, t, rest, hp, -⟩ := stepWith_next_inv hstep
  refine ⟨hmark, t, ?_⟩
  cases ht : t.inDomain with
  | true =>
    obtain ⟨q, o, hq, hqmark, hqpending, hqout⟩ := stepWith_completes_of_inDomainWith hmark hp ht
    cases hq.symm.trans hstep
    exact ⟨by rw [hqpending]; exact hp, .inl ⟨rfl, hqmark, o, hqout⟩⟩
  | false =>
    obtain ⟨q, f, hq, hqmark, hqpending, hqout, hqsr⟩ := stepWith_marksFault_of_not_inDomainWith hmark hp ht
    cases hq.symm.trans hstep
    exact ⟨by rw [hqpending]; exact hp, .inr ⟨rfl, ⟨f, hqmark⟩, hqout, hqsr⟩⟩

end Sys2Proof.Machine
end

section
/-! Noninterference (R30, R40, R71): no step depends on what is issued later, on what stands on the port REG between
transactions, on an SR that the host wrote before a CALC, or on another instance. -/

namespace Sys2Proof.Machine

/-! ### What is issued later (R40) -/

theorem stepWith_issue {m : OpcodeMap} {s s' : State} (h : stepWith m s = .next s') (t : Transaction) :
    stepWith m (s.issue t) = .next (s'.issue t) := by
  obtain ⟨hmark, u, rest, hp, htransact⟩ := stepWith_next_inv h
  obtain ⟨q, hq⟩ := transact_withPending m u s
  cases (hq rest).symm.trans htransact
  have hp' : (s.issue t).pending = u :: (rest ++ [t]) := by rw [State.issue_pending, hp, List.cons_append]
  exact (stepWith_of_pending (s := s.issue t) m hmark hp').trans (hq (rest ++ [t]))

/-- Settles O42: `stepWith_issue` under the default map. -/
theorem laterIssueDoesNotAffectAStep : Obligations.LaterIssueDoesNotAffectAStep :=
  fun _ _ t h => stepWith_issue h t

/-! ### What stands on the port REG (R36) -/

/-- A CALC word is performed without a look at the port: it decodes to a CALC or is rejected. -/
theorem runCommand_calc24_presentReg {m : OpcodeMap} {w : BitVec 24} {s s' : State}
    (h : runCommand m (.calc24 w) s = .next s') (r : RegValue) :
    runCommand m (.calc24 w) (s.presentReg r) = .next (s'.presentReg r) := by
  cases hd : decodeWith m (.calc24 w) with
  | ok i =>
    obtain ⟨t, v, hexec⟩ := exec_of_isCalc (isCalc_of_decodeCalc hd)
    rw [runCommand_of_ok hd, hexec] at h ⊢
    cases h
    rfl
  | error e =>
    rw [runCommand_of_error hd] at h ⊢
    cases h
    rfl

/-- The port's value before a transaction reaches nothing but the port's value after it; a bit-field transaction brings its
own REG. -/
theorem transact_presentReg {m : OpcodeMap} {t : Transaction} {s s' : State} (h : transact m t s = .next s')
    (r : RegValue) : ∃ q, transact m t (s.presentReg r) = .next (s'.presentReg q) := by
  cases t with
  | calculate w => exact ⟨r, runCommand_calc24_presentReg h r⟩
  | bitField w r' => exact ⟨s'.regPort, h⟩
  | readSR => cases h; exact ⟨r, rfl⟩
  | writeSR v => cases h; exact ⟨r, rfl⟩
  | reset => cases h; exact ⟨r, rfl⟩

/-- Settles O43: the step performs its oldest transaction, and `transact_presentReg` says what the port does to it. -/
theorem idlePortIsNeverObserved : Obligations.IdlePortIsNeverObserved := by
  intro s s' r hstep
  obtain ⟨hmark, t, rest, hp, htransact⟩ := stepWith_next_inv hstep
  obtain ⟨q, hq⟩ := transact_presentReg htransact r
  exact ⟨q, (stepWith_of_pending (s := s.presentReg r) opcodeMap hmark hp).trans hq⟩

/-! ### An SR that the host wrote (R71) -/

/-- Settles O41: the CALC gives the same Y and SR from every state (`calcIsATotalFunctionOfItsOperands`), so from the one
that the host write left too. -/
theorem hostWriteAffectsNoLaterCalc : Obligations.HostWriteAffectsNoLaterCalc := by
  intro s v w i rest hmark hd
  obtain ⟨y, sF, nF, zF, vF, cF, hgives, -⟩ := calcIsATotalFunctionOfItsOperands i (isCalc_of_decodeCalc hd)
  have hcalc (q : State) :
      transact opcodeMap (.calculate w) q = .next ((q.writeSR (srOf sF nF zF vF cF)).deliver (.y y)) :=
    (runCommand_of_ok hd q).trans (hgives q)
  refine ⟨srOf sF nF zF vF cF, y, ?_, core_run_succ_of_pending hmark rfl (hcalc _)⟩
  calc core.run 2 (s.withPending (.writeSR v :: .calculate w :: rest))
      = core.run 1 (((s.withPending (.calculate w :: rest)).writeSR v).deliver .nothing) :=
        core_run_succ_of_pending hmark rfl rfl
    _ = core.run 0 (((((s.withPending rest).writeSR v).deliver .nothing).writeSR (srOf sF nF zF vF cF)).deliver
          (.y y)) := core_run_succ_of_pending hmark rfl (hcalc _)
    _ = .next { s with
          sr := srOf sF nF zF vF cF, pending := rest, outputs := s.outputs ++ [.nothing, .y y] } :=
        congrArg Host.Outcome.next (State.eq_of_fields rfl rfl rfl rfl (by simp))

/-! ### Another instance (R30) -/

theorem getElem?_set_of_getElem? {is : Instances} {k : Nat} {s : State} (hk : is[k]? = some s) (s' : State) :
    (is.set k s')[k]? = some s' := by
  obtain ⟨hlt, -⟩ := List.getElem?_eq_some_iff.mp hk
  exact List.getElem?_set_self hlt

/-- Settles O46: a step puts the next state back at place `k` and reads no other (`stepInstanceWith_next_inv`,
`stepInstanceWith_of_next`). -/
theorem instancesShareNoState : Obligations.InstancesShareNoState := by
  intro k is is' h
  obtain ⟨s, s', hk, hstep, rfl⟩ := stepInstanceWith_next_inv h
  refine ⟨List.length_set, fun j hj => List.getElem?_set_ne hj.symm, fun js hjs => ?_⟩
  have hjk : js[k]? = some s := hjs.trans hk
  refine ⟨js.set k s', stepInstanceWith_of_next hjk hstep, ?_⟩
  rw [getElem?_set_of_getElem? hjk, getElem?_set_of_getElem? hk]

end Sys2Proof.Machine
end

section
/-! Runs (R111, R117): under every OPCODE_MAP, performing everything issued ends well exactly when every transaction is in
the domain, and then each has delivered one output. -/

namespace Sys2Proof.Machine

/-- The run of everything issued completes all of it without a fault (R117). -/
def RunEndsWell (m : OpcodeMap) (s : State) : Prop :=
  ∃ s', (coreWith m).run s.pending.length s = .next s' ∧ s'.endedWell = true

theorem State.endedWell_iff {s : State} : s.endedWell = true ↔ s.pending = [] ∧ s.faultMark = none := by
  simp [State.endedWell]

theorem State.dutiesKeptWith_iff {m : OpcodeMap} {s : State} :
    s.dutiesKeptWith m = true ↔ ∀ t ∈ s.pending, t.inDomainWith m = true := by
  rw [State.dutiesKeptWith, List.all_eq_true]

/-- A run that performs its oldest transaction first (R40). -/
theorem run_pending_of_next {m : OpcodeMap} {s q : State} {t : Transaction} {rest : List Transaction}
    (hp : s.pending = t :: rest) (hq : stepWith m s = .next q) (hqpending : q.pending = rest) :
    (coreWith m).run s.pending.length s = (coreWith m).run q.pending.length q := by
  rw [hp, hqpending, List.length_cons]
  exact run_succ_of_next (M := coreWith m) hq rest.length

/-- A run from a faulted state does not end well: it stops with the fault, or takes no step and leaves the mark. -/
theorem not_runEndsWell_of_faulted {m : OpcodeMap} {s : State} {f : Fault} (h : s.faultMark = some f) :
    ¬RunEndsWell m s := by
  rintro ⟨s', hrun, hend⟩
  cases hn : s.pending.length with
  | zero =>
    rw [hn] at hrun
    cases hrun
    obtain ⟨-, hmark⟩ := State.endedWell_iff.mp hend
    cases hmark.symm.trans h
  | succ n =>
    rw [hn, run_of_faulted m h] at hrun
    cases hrun

/-- In the domain each transaction completes with one output, by induction on what is issued. -/
theorem run_completes_of_dutiesKeptWith {m : OpcodeMap} {ts : List Transaction} {s : State}
    (hmark : s.faultMark = none) (hp : s.pending = ts) (hts : ∀ t ∈ ts, t.inDomainWith m = true) :
    ∃ s' os, (coreWith m).run s.pending.length s = .next s' ∧ s'.endedWell = true ∧
      s'.outputs = s.outputs ++ os ∧ os.length = ts.length := by
  induction ts generalizing s with
  | nil =>
    rw [hp]
    exact ⟨s, [], rfl, State.endedWell_iff.mpr ⟨hp, hmark⟩, (List.append_nil _).symm, rfl⟩
  | cons t rest ih =>
    obtain ⟨ht, hrest⟩ := List.forall_mem_cons.mp hts
    obtain ⟨q, o, hq, hqmark, hqpending, hqout⟩ := stepWith_completes_of_inDomainWith hmark hp ht
    obtain ⟨s', os, hrun, hend, hout, hlen⟩ := ih hqmark hqpending hrest
    refine ⟨s', o :: os, (run_pending_of_next hp hq hqpending).trans hrun, hend, ?_, congrArg Nat.succ hlen⟩
    rw [hout, hqout, List.append_assoc]
    rfl

/-- The first transaction outside the domain marks a fault, and the run does not get past it. -/
theorem inDomainWith_of_runEndsWell {m : OpcodeMap} {ts : List Transaction} {s : State} (hmark : s.faultMark = none)
    (hp : s.pending = ts) (hrun : RunEndsWell m s) : ∀ t ∈ ts, t.inDomainWith m = true := by
  induction ts generalizing s with
  | nil => exact fun _ ht => nomatch ht
  | cons t rest ih =>
    cases ht : t.inDomainWith m with
    | true =>
      obtain ⟨q, o, hq, hqmark, hqpending, -⟩ := stepWith_completes_of_inDomainWith hmark hp ht
      have hrest : RunEndsWell m q := by rwa [RunEndsWell, run_pending_of_next hp hq hqpending] at hrun
      exact List.forall_mem_cons.mpr ⟨ht, ih hqmark hqpending hrest⟩
    | false =>
      obtain ⟨q, f, hq, hqmark, hqpending, -⟩ := stepWith_marksFault_of_not_inDomainWith hmark hp ht
      have hrest : RunEndsWell m q := by rwa [RunEndsWell, run_pending_of_next hp hq hqpending] at hrun
      exact absurd hrest (not_runEndsWell_of_faulted hqmark)

theorem runEndsWell_iff_dutiesKeptWith {m : OpcodeMap} {s : State} (hmark : s.faultMark = none) :
    RunEndsWell m s ↔ s.dutiesKeptWith m = true := by
  rw [State.dutiesKeptWith_iff]
  refine ⟨inDomainWith_of_runEndsWell hmark rfl, fun h => ?_⟩
  obtain ⟨s', -, hrun, hend, -⟩ := run_completes_of_dutiesKeptWith hmark rfl h
  exact ⟨s', hrun, hend⟩

/-- Settles O56: `runEndsWell_iff_dutiesKeptWith`. -/
theorem runEndsWellExactlyWhenDutiesAreKeptUnderEveryMap :
    Obligations.RunEndsWellExactlyWhenDutiesAreKeptUnderEveryMap :=
  fun _ _ hmark => runEndsWell_iff_dutiesKeptWith hmark

/-- Settles O44: `runEndsWell_iff_dutiesKeptWith` under the default map. -/
theorem runEndsWellExactlyWhenDutiesAreKept : Obligations.RunEndsWellExactlyWhenDutiesAreKept :=
  fun _ hmark => runEndsWell_iff_dutiesKeptWith (m := opcodeMap) hmark

/-- Settles O45: `run_completes_of_dutiesKeptWith` under the default map. -/
theorem runDeliversOneOutputPerTransaction : Obligations.RunDeliversOneOutputPerTransaction :=
  fun _ hmark hduties => run_completes_of_dutiesKeptWith hmark rfl (State.dutiesKeptWith_iff.mp hduties)

end Sys2Proof.Machine
end

section
/-! Assembler lines (R55 to R62): a decimal spelling is read as the operand it writes, so a CALC line assembles to the word
of its operation and operands under every OPCODE_MAP, and a set line to the BF word of set. -/

namespace Sys2Proof

/-! ### The codes of an admissible map (R9) -/

theorem OpcodeMap.nop_notMem_of_wellFormed {m : OpcodeMap} (hm : m.wellFormed = true) :
    m.nop ∉ [m.or, m.and, m.xor, m.add, m.sub] :=
  (List.nodup_cons.mp (of_decide_eq_true hm : m.codes.Nodup)).1

theorem OpcodeMap.ne_nop_of_legal {m : OpcodeMap} (hm : m.wellFormed = true) {op : Byte} (h : m.legal op = true) :
    op ≠ m.nop := by
  rintro rfl
  exact nop_notMem_of_wellFormed hm (legal_iff_mem.mp h)

end Sys2Proof

namespace Sys2Proof.Machine

/-! ### The names and symbols of an admissible map (R55 to R58) -/

/-- The five names of R55. -/
def calcNames : List String := ["OR", "AND", "XOR", "ADD", "SUB"]

/-- A name's code is one of the five. -/
theorem legal_parseOperationWith {name : String} (h : name ∈ calcNames) (m : OpcodeMap) :
    m.legal (parseOperationWith m name) = true := by
  simp only [calcNames, List.mem_cons, List.not_mem_nil, or_false] at h
  rw [OpcodeMap.legal_iff_mem]
  obtain rfl | rfl | rfl | rfl | rfl := h <;> simp

theorem operationNameWith_mem {m : OpcodeMap} {op : Byte} (h : m.legal op = true) :
    operationNameWith m op ∈ calcNames := by
  rw [OpcodeMap.legal_iff_mem] at h
  fun_cases operationNameWith m op with
  | case1 => decide
  | case2 => decide
  | case3 => decide
  | case4 => decide
  | case5 => decide
  | case6 hor hand hxor hadd hsub => exact absurd h (notMem_five_iff.mpr ⟨hor, hand, hxor, hadd, hsub⟩)

/-- Under distinct codes no earlier test of a lookup takes a code for another's. -/
theorem lookups_of_wellFormed {m : OpcodeMap} (hm : m.wellFormed = true) {name symbol : String} {code : Byte}
    (h : (name, symbol, code) ∈
      [("OR", "|", m.or), ("AND", "&", m.and), ("XOR", "^", m.xor), ("ADD", "+", m.add), ("SUB", "-", m.sub)]) :
    operationNameWith m code = name ∧ operatorSymbolWith m code = symbol ∧ parseOperationWith m name = code := by
  have hnodup : m.codes.Nodup := of_decide_eq_true hm
  simp only [OpcodeMap.codes, List.nodup_cons, List.mem_cons, List.not_mem_nil, not_or, or_false] at hnodup
  obtain ⟨-, ⟨hor_and, hor_xor, hor_add, hor_sub⟩, ⟨hand_xor, hand_add, hand_sub⟩, ⟨hxor_add, hxor_sub⟩, hadd_sub, -⟩ :=
    hnodup
  simp only [List.mem_cons, List.not_mem_nil, or_false, Prod.mk.injEq] at h
  obtain ⟨rfl, rfl, rfl⟩ | ⟨rfl, rfl, rfl⟩ | ⟨rfl, rfl, rfl⟩ | ⟨rfl, rfl, rfl⟩ | ⟨rfl, rfl, rfl⟩ := h
  · simp [operationNameWith, operatorSymbolWith]
  · simp [operationNameWith, operatorSymbolWith, Ne.symm hor_and]
  · simp [operationNameWith, operatorSymbolWith, Ne.symm hor_xor, Ne.symm hand_xor]
  · simp [operationNameWith, operatorSymbolWith, Ne.symm hor_add, Ne.symm hand_add, Ne.symm hxor_add]
  · simp [operationNameWith, operatorSymbolWith, Ne.symm hor_sub, Ne.symm hand_sub, Ne.symm hxor_sub, Ne.symm hadd_sub]

/-! ### A decimal spelling as an operand (R60, R61) -/

/-- A decimal spelling is a digit and more digits. -/
theorem decimal_eq_cons (n : Nat) :
    ∃ c cs, decimal n = c :: cs ∧ (decDigit c).isSome ∧ ∀ d ∈ cs, (decDigit d).isSome := by
  obtain ⟨hdigits, hne, -⟩ := decimalDigits_spec (n + 1) n (Nat.lt_succ_self n)
  obtain ⟨c, cs, hcons⟩ := List.exists_cons_of_ne_nil hne
  rw [hcons] at hdigits
  obtain ⟨hc, hcs⟩ := List.forall_mem_cons.mp hdigits
  exact ⟨c, cs, hcons, hc, hcs⟩

theorem notMem_decimal {c : Char} (hc : decDigit c = none) (n : Nat) : c ∉ decimal n := by
  obtain ⟨hdigits, -, -⟩ := decimalDigits_spec (n + 1) n (Nat.lt_succ_self n)
  intro hmem
  have hdigit := hdigits c hmem
  rw [hc] at hdigit
  cases hdigit

/-- What stands after an operand: the comma, or the end of the line. -/
def EndsOperand (rest : List Char) : Prop := ∀ c cs, rest = c :: cs → c = ','

theorem endsOperand_nil : EndsOperand [] := fun _ _ h => nomatch h

theorem endsOperand_comma (cs : List Char) : EndsOperand (',' :: cs) := by
  rintro c cs' ⟨⟩
  rfl

theorem EndsOperand.endsNumeral {rest : List Char} (h : EndsOperand rest) : EndsNumeral rest := by
  rintro c cs hcons
  rw [h c cs hcons]
  rfl

section
variable {rest : List Char} (hrest : EndsOperand rest)
include hrest

/-- A decimal spelling does not look hexadecimal: no x stands in it or right after it. -/
theorem readUnsigned_decimal (n : Nat) : readUnsigned (decimal n ++ rest) = some (n, rest) := by
  obtain ⟨c, cs, hcons, -, hcs⟩ := decimal_eq_cons n
  have hhex : ∀ xs, decimal n ++ rest = '0' :: 'x' :: xs → False := by
    intro xs heq
    rw [hcons, List.cons_append, List.cons.injEq] at heq
    obtain ⟨-, htail⟩ := heq
    cases cs with
    | nil => exact absurd (hrest _ _ htail) (by decide)
    | cons d ds =>
      obtain ⟨rfl, -⟩ := List.cons.inj htail
      exact absurd (hcs 'x' (by simp)) (by decide)
  rw [readUnsigned.eq_2 _ hhex]
  exact readDecimal_decimal n rest hrest.endsNumeral

theorem readOperand_decimal (a : Byte) : readOperand (decimal a.toNat ++ rest) = some (a, rest) := by
  obtain ⟨c, cs, hcons, hc, -⟩ := decimal_eq_cons a.toNat
  have hsign : ∀ xs, decimal a.toNat ++ rest = '-' :: xs → False := by
    intro xs heq
    rw [hcons, List.cons_append, List.cons.injEq] at heq
    obtain ⟨rfl, -⟩ := heq
    exact absurd hc (by decide)
  have ha : a.toNat ≤ 255 := Nat.le_of_lt_succ a.isLt
  simp [readOperand.eq_2 _ hsign, readUnsigned_decimal hrest, ha]

/-- The negative form of an operand denotes v + 256 (R60). -/
theorem readOperand_negative {n : Nat} (hpos : 1 ≤ n) (hle : n ≤ 128) :
    readOperand ('-' :: decimal n ++ rest) = some (BitVec.ofNat 8 (256 - n), rest) := by
  simp [readOperand, readDecimal_decimal n rest hrest.endsNumeral, hpos, hle]

end

theorem calcOperands_of_readOperand {a b : Byte} {cs rest : List Char}
    (ha : readOperand cs = some (a, ',' :: ' ' :: rest)) (hb : readOperand rest = some (b, [])) :
    calcOperands cs = some (a, b) := by
  simp only [calcOperands, ha, hb]

theorem readOperand_last_decimal (b : Byte) : readOperand (decimal b.toNat) = some (b, []) := by
  simpa using readOperand_decimal endsOperand_nil b

theorem calcOperands_decimal (a b : Byte) :
    calcOperands (decimal a.toNat ++ ',' :: ' ' :: decimal b.toNat) = some (a, b) :=
  calcOperands_of_readOperand (readOperand_decimal (endsOperand_comma _) a) (readOperand_last_decimal b)

theorem calcOperands_negative {a : Byte} (ha : 128 ≤ a.toNat) (b : Byte) :
    calcOperands ('-' :: decimal (256 - a.toNat) ++ ',' :: ' ' :: decimal b.toNat) = some (a, b) := by
  have hlt := a.isLt
  have hread := readOperand_negative (n := 256 - a.toNat) (endsOperand_comma (' ' :: decimal b.toNat))
    (by omega) (by omega)
  rw [Nat.sub_sub_self hlt.le, BitVec.ofNat_toNat, BitVec.setWidth_eq] at hread
  exact calcOperands_of_readOperand hread (readOperand_last_decimal b)

/-! ### CALC lines (R59, R60) -/

/-- A CALC's name is one word, and no bit-field function's. -/
theorem calcNames_spec : ∀ name ∈ calcNames, ' ' ∉ name.toList ∧ bfopOf (splitAt '.' name.toList).1 = none := by
  decide

theorem calcCodeOf_toList (m : OpcodeMap) (name : String) : calcCodeOf m name.toList = parseOperationWith m name := by
  rw [calcCodeOf, String.ofList_toList]

/-- A line of a CALC's name and two readable operands assembles to the word of the name's code. -/
theorem assembleWith_calcLine {m : OpcodeMap} (hm : m.wellFormed = true) {name : String} (hname : name ∈ calcNames)
    {operands : List Char} {a b : Byte} (hoperands : calcOperands operands = some (a, b)) :
    assembleWith m (name.toList ++ ' ' :: operands) =
      .ok (.calculate (calcWord (parseOperationWith m name) a b)) := by
  obtain ⟨hspace, hbfop⟩ := calcNames_spec name hname
  have hcode := OpcodeMap.ne_nop_of_legal hm (legal_parseOperationWith hname m)
  simp only [assembleWith, splitAt_append ' ' _ operands hspace, hbfop, calcCodeOf_toList, hcode, if_false, hoperands]

/-- Settles O51: the operation's name gives its code back (`parseOperationWith_operationNameWith`), and both spellings of
the operands are read as `a` and `b`. -/
theorem decimalCalcLinesAssemble : Obligations.DecimalCalcLinesAssemble := by
  intro op a b hop
  have hm : opcodeMap.wellFormed = true := by decide
  have hline {operands : List Char} (hoperands : calcOperands operands = some (a, b)) :
      assemble ((operationName op).toList ++ ' ' :: operands) = .ok (.calculate (calcWord op a b)) := by
    have hassembled := assembleWith_calcLine hm (operationNameWith_mem hop) hoperands
    rwa [parseOperationWith_operationNameWith hop] at hassembled
  simp only [List.append_assoc, List.cons_append]
  exact ⟨hline (calcOperands_decimal a b), fun ha => hline (calcOperands_negative ha b)⟩

/-- Settles O58: the lookups by `lookups_of_wellFormed` and the `_of_notMem` lemmas, the lines by `assembleWith_calcLine`. -/
theorem namesAndCalcLinesUnderEveryMap : Obligations.NamesAndCalcLinesUnderEveryMap := by
  intro m hm
  refine ⟨fun _ _ _ => lookups_of_wellFormed hm,
    fun _ hop => ⟨operationNameWith_of_notMem hop, operatorSymbolWith_of_notMem hop⟩,
    fun _ hname => parseOperationWith_of_notMem hname m, fun a b r name i h => ?_⟩
  have hline (name : String) (hname : name ∈ calcNames) :=
    assembleWith_calcLine hm hname (calcOperands_decimal a b)
  simp only [List.append_assoc, List.cons_append]
  simp only [List.mem_cons, List.not_mem_nil, or_false, Prod.mk.injEq] at h
  obtain ⟨rfl, rfl⟩ | ⟨rfl, rfl⟩ | ⟨rfl, rfl⟩ | ⟨rfl, rfl⟩ | ⟨rfl, rfl⟩ := h
  · exact hline "OR" (by decide)
  · exact hline "AND" (by decide)
  · exact hline "XOR" (by decide)
  · exact hline "ADD" (by decide)
  · exact hline "SUB" (by decide)

/-! ### Unknown mnemonics (R59) -/

theorem bfopOf_of_notMem {name : List Char}
    (h : name ∉ [['s', 'e', 't'], ['c', 'l', 'e', 'a', 'r'], ['r', 'e', 'a', 'd']]) : bfopOf name = none := by
  simp only [List.mem_cons, List.not_mem_nil, or_false, not_or] at h
  obtain ⟨hset, hclear, hread⟩ := h
  rw [bfopOf, if_neg hset, if_neg hclear, if_neg hread]

/-- Settles O53: the word is no bit-field function (`bfopOf_of_notMem`), and parse_operation gives NOP for it. -/
theorem unknownMnemonicsAreRejected : Obligations.UnknownMnemonicsAreRejected := by
  intro word operands hspace hname hbf
  have hnop : calcCodeOf opcodeMap word = opcodeMap.nop := parseOperationWith_of_notMem hname opcodeMap
  simp only [assemble, assembleWith, splitAt_append ' ' word operands hspace, bfopOf_of_notMem hbf, hnop, if_true]

/-! ### Set lines (R61) -/

theorem bfWidth_decimal {w : Nat} (hpos : 1 ≤ w) (hle : w ≤ 256) : bfWidth (some (decimal w)) = some w := by
  have hread : readDecimal (decimal w) = some (w, []) := by
    simpa using readDecimal_decimal w [] endsOperand_nil.endsNumeral
  simp [bfWidth, hread, hpos, hle]

theorem bfOperands_decimal {w reg idx : Nat} (hreg : reg < 2 ^ w) (hidx : idx < w) :
    bfOperands w (decimal reg ++ ',' :: ' ' :: decimal idx) = some (RegValue.ofNat w reg, BitVec.ofNat 8 idx) := by
  have hread : readDecimal (decimal idx) = some (idx, []) := by
    simpa using readDecimal_decimal idx [] endsOperand_nil.endsNumeral
  simp [bfOperands, readUnsigned_decimal (endsOperand_comma _), hread, hreg, hidx]

theorem RegValue.value_ofNat_toNat {w v : Nat} (hpos : 1 ≤ w) (hle : w ≤ 256) (hv : v < 2 ^ w) :
    (RegValue.ofNat w v).value.toNat = v := by
  have hwidth : (Fin.ofNat 256 (w - 1)).val + 1 = w := RegValue.width_ofNat hpos hle v
  rw [RegValue.ofNat, BitVec.toNat_ofNat, hwidth, Nat.mod_eq_of_lt hv]

/-- Settles O52: the line is split at its space and its dot, which no decimal spelling holds, and the three numbers are read
back. -/
theorem decimalSetLinesAssemble : Obligations.DecimalSetLinesAssemble := by
  intro w reg idx hpos hle hreg hidx
  refine ⟨?_, RegValue.width_ofNat hpos hle reg, RegValue.value_ofNat_toNat hpos hle hreg⟩
  have hspace : ' ' ∉ "set.".toList ++ decimal w := by
    rw [List.mem_append, not_or]
    exact ⟨by decide, notMem_decimal rfl w⟩
  have hdot : splitAt '.' ("set.".toList ++ decimal w) = ("set".toList, some (decimal w)) :=
    splitAt_append '.' "set".toList (decimal w) (by decide)
  have hbfop : bfopOf "set".toList = some 0#2 := rfl
  have hline : "set.".toList ++ decimal w ++ ' ' :: decimal reg ++ ',' :: ' ' :: decimal idx =
      ("set.".toList ++ decimal w) ++ ' ' :: (decimal reg ++ ',' :: ' ' :: decimal idx) := by
    rw [List.append_assoc, List.cons_append]
  simp only [hline, assemble, assembleWith, splitAt_append ' ' _ _ hspace, hdot, hbfop, bfWidth_decimal hpos hle,
    bfOperands_decimal hreg hidx]

end Sys2Proof.Machine
end
